-- ==== Sys2Proof/Word.lean ====
section
/-! DEFINITION. The widths the spec fixes (rule R5): 8-bit bytes, 32-bit general-purpose values and addresses, 64-bit
SIMD&FP registers. -/

namespace Sys2Proof

/-- One byte of memory: memory is addressed in bytes (rule R5). -/
abbrev Byte := BitVec 8

/-- A general-purpose register value, a virtual address or an instruction word: 32 bits (rules R5, R80). -/
abbrev Word := BitVec 32

/-- A SIMD&FP register D[i], and the zero-extended address of a fault record: 64 bits (rule R5). -/
abbrev Dword := BitVec 64

end Sys2Proof
end

