-- ==== Sys2Proof/Config.lean ====
section
/-! DEFINITION. The types of what the spec leaves to the implementation or the launch (rule R5), and the free values: constants
with no body, so that no proof can see what they are. -/

namespace Sys2Proof

/-- The two AArch32 instruction sets the page gives encodings for (rule R2); parameter `iset` of rule R5. -/
inductive ISet where
  | a32
  | t32
deriving DecidableEq, Repr

/-- The current Exception level PSTATE.EL (rule R28); only EL0 or not matters to the instruction. -/
inductive EL where
  | el0
  | el1
  | el2
  | el3
deriving DecidableEq, Repr

/-- The PE mode, one of the inputs of the enable check (rules R29, R193). PRESUMED: the list of modes (log 9). -/
inductive PeMode where
  | user
  | fiq
  | irq
  | supervisor
  | monitor
  | abort
  | hyp
  | undefined
  | system
deriving DecidableEq, Repr

/-- What an access does (rule R157): the instruction makes stores only. -/
inductive AccessKind where
  | load
  | store
deriving DecidableEq, Repr

/-- What kind of instruction made an access (rule R157). -/
inductive AccessOrigin where
  | asimd
deriving DecidableEq, Repr

/-- The access descriptor that every element store carries (rule R157). -/
structure AccDesc where
  kind        : AccessKind
  origin      : AccessOrigin
  nontemporal : Bool
  tagchecked  : Bool
  privileged  : Bool
deriving DecidableEq, Repr

/-- The kinds of abort `MemAdmit` may answer (rule R183). -/
inductive AbortKind where
  | translation
  | permission
  | accessFlag
  | external
deriving DecidableEq, Repr

/-- The `info` of `DataAbort(other, info)`: opaque to the spec; a model that refines `MemAdmit` gives it the faulting element
address and the kind (rule R183). -/
structure AbortInfo where
  kind    : AbortKind
  address : Word
deriving DecidableEq, Repr

/-- The two forms of a Data Abort (rules R182, R183): the Alignment fault with its fault record (access descriptor and the base
address zero-extended to 64 bits), and any abort of an element store. -/
inductive DataAbort where
  | alignmentFault (accdesc : AccDesc) (address : Dword)
  | other (info : AbortInfo)
deriving DecidableEq, Repr

/-- The three outcomes of `CheckAdvSIMDEnabled()` (rule R30). -/
inductive AdvSimdResult where
  | enabled
  | undef
  | hypTrap
deriving DecidableEq, Repr

/-- The values of the parameter `CU_d4`: what the implementation does for `d4 > 31` (rules R92, R154). -/
inductive CuD4 where
  | refuse
  | undef
  | nop
  | unknown
deriving DecidableEq, Repr

/-- What the enable check depends on: "settings in the CPACR, NSACR, and HCPTR registers, and the Security state and PE mode in
which the instruction is executed" (rule R29). The registers are whole words: the spec gives them no field. -/
structure SimdContext where
  cpacr  : Word
  nsacr  : Word
  hcptr  : Word
  secure : Bool
  mode   : PeMode
deriving DecidableEq, Repr

/-- The open function `AdvSIMDCheck` (rule R30) as plain data: the answer for each listed context, `otherwise` for any other. -/
structure AdvSimdRule where
  cases     : List (SimdContext × AdvSimdResult)
  otherwise : AdvSimdResult
deriving DecidableEq, Repr

/-- A test of the machine's state, as plain data: what the oracle `MemAdmit` may look at beside the access itself (rules R5, R58).
The atoms are the state of 10_state.md and what the enable check consults; a Boolean combination of them singles out any set of such
states. PSTATE.EL is no atom: it acts through the descriptor's `privileged` alone (rules R28, R193); neither is DIT (rule R216). -/
inductive StateTest where
  | always
  | gprIs (i : Fin 16) (v : Word)
  | dregIs (i : Fin 32) (v : Dword)
  | pcIs (v : Word)
  | byteIs (a : Word) (v : Option Byte)
  | simdIs (c : SimdContext)
  | negated (t : StateTest)
  | both (t u : StateTest)
deriving DecidableEq, Repr

/-- An access, in the states that a test singles out, to which the oracle `MemAdmit` answers `Abort(info)` (rule R58); it answers
`Ok` to every access that no entry lists (log 14). -/
structure AdmitEntry where
  test    : StateTest
  accdesc : AccDesc
  address : Word
  size    : Nat
  info    : AbortInfo
deriving DecidableEq, Repr

/-- A range of byte addresses, the form in which `LaunchMemory` is given (rule R61). -/
structure Region where
  base : Nat
  size : Nat
deriving DecidableEq, Repr

/-- The free values of the model. Each is applied to the counter `State.draws`, which moves on at every draw, so that every
UNKNOWN value is "a free draw from all values of its width, made anew on each execution" (rule R154 note (c); log 5). -/
opaque Config.freeByte : Nat → Byte

/-- The free value of an UNKNOWN general-purpose register (rule R154; log 5). -/
opaque Config.freeWord : Nat → Word

/-- The free value of an UNKNOWN SIMD&FP register (rule R154; log 5). -/
opaque Config.freeDword : Nat → Dword

/-- How the `Unknown` row of `d4 > 31` ends: it completes, or it raises one of the Data Aborts (rule R154 note (b)). -/
inductive UnknownRowEnd where
  | completes
  | alignmentFault
  | abort (info : AbortInfo)
deriving DecidableEq, Repr, Inhabited

/-- How the `Unknown` row of `d4 > 31` ends, left open: "a model must not prove either the presence or the absence of a `DataAbort`
for `d4 > 31`" (rule R154 note (b); log 6). -/
opaque Config.freeUnknownRowEnd : Nat → UnknownRowEnd

end Sys2Proof
end

