-- ==== Sys2Proof/Syntax.lean ====
section
/-! DEFINITION. The instructions: one constructor for each row of spec/opcode_table.json, holding the row's variable fields as
rule R81 lays them out. -/

namespace Sys2Proof

/-- The element size of a class (rule R85): 8, 16 or 32 bits. -/
inductive ElemSize where
  | b8
  | b16
  | b32
deriving DecidableEq, Repr

/-- The eighteen encodings of VST4 and the two UNDEFINED patterns `size == '11'` (rules R88, R89). `dd` is the five-bit field
`D:Vd`, `rn` and `rm` the register fields, `ia` the field `index_align`. The forms `nowb` and `posti` have `Rm` fixed. -/
inductive Instr where
  /-- VST4_1_A1_nowb (rule R110). -/
  | a1Nowb (dd : BitVec 5) (rn ia : BitVec 4)
  /-- VST4_1_A1_posti (rule R111). -/
  | a1Posti (dd : BitVec 5) (rn ia : BitVec 4)
  /-- VST4_1_A1_postr (rule R112). -/
  | a1Postr (dd : BitVec 5) (rn ia rm : BitVec 4)
  /-- VST4_1_A2_nowb (rule R113). -/
  | a2Nowb (dd : BitVec 5) (rn ia : BitVec 4)
  /-- VST4_1_A2_posti (rule R114). -/
  | a2Posti (dd : BitVec 5) (rn ia : BitVec 4)
  /-- VST4_1_A2_postr (rule R115). -/
  | a2Postr (dd : BitVec 5) (rn ia rm : BitVec 4)
  /-- VST4_1_A3_nowb (rule R116). -/
  | a3Nowb (dd : BitVec 5) (rn ia : BitVec 4)
  /-- VST4_1_A3_posti (rule R117). -/
  | a3Posti (dd : BitVec 5) (rn ia : BitVec 4)
  /-- VST4_1_A3_postr (rule R118). -/
  | a3Postr (dd : BitVec 5) (rn ia rm : BitVec 4)
  /-- The A32 pattern with `size == '11'` (rule R89). -/
  | a32Size11 (dd : BitVec 5) (rn ia rm : BitVec 4)
  /-- VST4_1_T1_nowb (rule R130). -/
  | t1Nowb (dd : BitVec 5) (rn ia : BitVec 4)
  /-- VST4_1_T1_posti (rule R131). -/
  | t1Posti (dd : BitVec 5) (rn ia : BitVec 4)
  /-- VST4_1_T1_postr (rule R132). -/
  | t1Postr (dd : BitVec 5) (rn ia rm : BitVec 4)
  /-- VST4_1_T2_nowb (rule R133). -/
  | t2Nowb (dd : BitVec 5) (rn ia : BitVec 4)
  /-- VST4_1_T2_posti (rule R134). -/
  | t2Posti (dd : BitVec 5) (rn ia : BitVec 4)
  /-- VST4_1_T2_postr (rule R135). -/
  | t2Postr (dd : BitVec 5) (rn ia rm : BitVec 4)
  /-- VST4_1_T3_nowb (rule R136). -/
  | t3Nowb (dd : BitVec 5) (rn ia : BitVec 4)
  /-- VST4_1_T3_posti (rule R137). -/
  | t3Posti (dd : BitVec 5) (rn ia : BitVec 4)
  /-- VST4_1_T3_postr (rule R138). -/
  | t3Postr (dd : BitVec 5) (rn ia rm : BitVec 4)
  /-- The T32 pattern with `size == '11'` (rule R89). -/
  | t32Size11 (dd : BitVec 5) (rn ia rm : BitVec 4)
deriving DecidableEq, Repr

/-- The three address forms of the assembler syntax (rule R94). -/
inductive AsmForm where
  | offset
  | postIndexed
  | postIndexedBy (rm : BitVec 4)
deriving DecidableEq, Repr

/-- A line of the assembler syntax (rules R94 to R99): `conditional` says that a condition suffix other than AL is written,
`first` is `<Dd>`, `double` double spacing, `align` the `<align>` in bits. -/
structure AsmLine where
  conditional : Bool
  size        : ElemSize
  first       : BitVec 5
  double      : Bool
  index       : Nat
  rn          : BitVec 4
  align       : Option Nat
  form        : AsmForm
deriving DecidableEq, Repr

end Sys2Proof
end

