-- ==== Sys2Proof/WellFormed.lean ====
section
/-! DEFINITION. Well-formed instructions: the terms that an instruction word stands for. -/

namespace Sys2Proof

/-- `Rm` is an index register: `Rm != 11x1`, that is neither 1101 nor 1111, which select the other two forms (rules R88, R93). -/
def isIndexReg (rm : BitVec 4) : Bool := rm != 13#4 && rm != 15#4

/-- The one constraint the table puts on a row's fields: the `postr` rows have `Rm != 11x1` (rule R88). Words that the Decode
blocks call UNDEFINED or UNPREDICTABLE are instructions of their row; what they do is the row's meaning (rules R89 to R92). -/
def Instr.wellFormed : Instr → Bool
  | .a1Nowb _ _ _ | .a1Posti _ _ _ => true
  | .a1Postr _ _ _ rm => isIndexReg rm
  | .a2Nowb _ _ _ | .a2Posti _ _ _ => true
  | .a2Postr _ _ _ rm => isIndexReg rm
  | .a3Nowb _ _ _ | .a3Posti _ _ _ => true
  | .a3Postr _ _ _ rm => isIndexReg rm
  | .a32Size11 _ _ _ _ => true
  | .t1Nowb _ _ _ | .t1Posti _ _ _ => true
  | .t1Postr _ _ _ rm => isIndexReg rm
  | .t2Nowb _ _ _ | .t2Posti _ _ _ => true
  | .t2Postr _ _ _ rm => isIndexReg rm
  | .t3Nowb _ _ _ | .t3Posti _ _ _ => true
  | .t3Postr _ _ _ rm => isIndexReg rm
  | .t32Size11 _ _ _ _ => true

/-- The instruction set a constructor belongs to (rule R2). -/
def Instr.iset : Instr → ISet
  | .a1Nowb _ _ _ | .a1Posti _ _ _ | .a1Postr _ _ _ _ => .a32
  | .a2Nowb _ _ _ | .a2Posti _ _ _ | .a2Postr _ _ _ _ => .a32
  | .a3Nowb _ _ _ | .a3Posti _ _ _ | .a3Postr _ _ _ _ => .a32
  | .a32Size11 _ _ _ _ => .a32
  | .t1Nowb _ _ _ | .t1Posti _ _ _ | .t1Postr _ _ _ _ => .t32
  | .t2Nowb _ _ _ | .t2Posti _ _ _ | .t2Postr _ _ _ _ => .t32
  | .t3Nowb _ _ _ | .t3Posti _ _ _ | .t3Postr _ _ _ _ => .t32
  | .t32Size11 _ _ _ _ => .t32

/-- Lanes of a size in a 64-bit register (rules R33, R97). -/
def ElemSize.lanes : ElemSize → Nat
  | .b8 => 8
  | .b16 => 4
  | .b32 => 2

/-- The value of `index_align`'s alignment bits for an `<align>` in bits, where the size has that alignment (rule R99). -/
def ElemSize.alignBits : ElemSize → Option Nat → Option (BitVec 2)
  | _, none => some 0#2
  | .b8, some 32 => some 1#2
  | .b16, some 64 => some 1#2
  | .b32, some 64 => some 1#2
  | .b32, some 128 => some 2#2
  | _, some _ => none

/-- The register list of a line ends at D31 at the latest: it names registers (rules R32, R97). -/
def AsmLine.listFits (l : AsmLine) : Bool := l.first.toNat + 3 * (if l.double then 2 else 1) ≤ 31

/-- A line an assembler accepts for an instruction set: A32 is unconditional (rule R95, conflict C4), double spacing is "Not
permitted when `<size>` == 8" and the index is a lane (rule R97), `<align>` is one the size has (rule R99), `<Rm>` is neither 13
nor 15 (rule R98), the base is not 15 (rule R91). -/
def AsmLine.wellFormed (iset : ISet) (l : AsmLine) : Bool :=
  (iset == .t32 || !l.conditional) && (l.size != .b8 || !l.double) && decide (l.index < l.size.lanes) &&
    (l.size.alignBits l.align).isSome && l.listFits && l.rn != 15#4 &&
    match l.form with
    | .offset | .postIndexed => true
    | .postIndexedBy rm => isIndexReg rm

end Sys2Proof
end

