-- ==== Sys2Proof/Decode.lean ====
section
/-! DEFINITION. Decoding (rules R51, R81, R88), total on any bytes and rejecting by name; then the encoder, the assembler and the
table of rows, written from the same rules. -/

namespace Sys2Proof

/-- Why the decoder reads no instruction. `notInScope`: the word is none of the twenty patterns (rule R88 step 1; safe: nothing is
claimed of it). `truncated`: fewer than four bytes were given, and every encoding is 32 bits long (rule R80; safe). -/
inductive DecodeError where
  | notInScope
  | truncated
deriving DecidableEq, Repr

/-- The variable fields of a word and its size bits (rule R81). -/
structure Fields where
  dd   : BitVec 5
  rn   : BitVec 4
  size : BitVec 2
  ia   : BitVec 4
  rm   : BitVec 4
deriving DecidableEq, Repr

/-- Bits 31:23: `111101001` in A32, `111110011` in T32 (rule R81). -/
def opcodeBits : ISet → BitVec 9
  | .a32 => 0b111101001#9
  | .t32 => 0b111110011#9

/-- The fixed bits of rule R88 step 1: 31:23 the opcode, 21 (`L`) and 20 zero, 9:8 (`N`) `11`. -/
def fixedBitsMatch (iset : ISet) (w : Word) : Bool :=
  w.extractLsb' 23 9 == opcodeBits iset && w.extractLsb' 20 2 == 0#2 && w.extractLsb' 8 2 == 3#2

/-- The fields of a word (rule R81): `D` is bit 22 and `Vd` bits 15:12, read together as `D::Vd` (rule R84). -/
def fieldsOf (w : Word) : Fields where
  dd   := w.extractLsb' 22 1 ++ w.extractLsb' 12 4
  rn   := w.extractLsb' 16 4
  size := w.extractLsb' 10 2
  ia   := w.extractLsb' 4 4
  rm   := w.extractLsb' 0 4

/-- One of three by `Rm`: `1111` the Offset form, `1101` post-indexed by the size, else post-indexed by a register (R88 step 3). -/
def byForm (rm : BitVec 4) (nowb posti postr : Instr) : Instr :=
  if rm = 15#4 then nowb else if rm = 13#4 then posti else postr

/-- The row of the table that given fields belong to (rule R88 steps 2 and 3). -/
def rowOf (iset : ISet) (f : Fields) : Instr :=
  match iset, f.size.toNat with
  | .a32, 0 => byForm f.rm (.a1Nowb f.dd f.rn f.ia) (.a1Posti f.dd f.rn f.ia) (.a1Postr f.dd f.rn f.ia f.rm)
  | .a32, 1 => byForm f.rm (.a2Nowb f.dd f.rn f.ia) (.a2Posti f.dd f.rn f.ia) (.a2Postr f.dd f.rn f.ia f.rm)
  | .a32, 2 => byForm f.rm (.a3Nowb f.dd f.rn f.ia) (.a3Posti f.dd f.rn f.ia) (.a3Postr f.dd f.rn f.ia f.rm)
  | .a32, _ => .a32Size11 f.dd f.rn f.ia f.rm
  | .t32, 0 => byForm f.rm (.t1Nowb f.dd f.rn f.ia) (.t1Posti f.dd f.rn f.ia) (.t1Postr f.dd f.rn f.ia f.rm)
  | .t32, 1 => byForm f.rm (.t2Nowb f.dd f.rn f.ia) (.t2Posti f.dd f.rn f.ia) (.t2Postr f.dd f.rn f.ia f.rm)
  | .t32, 2 => byForm f.rm (.t3Nowb f.dd f.rn f.ia) (.t3Posti f.dd f.rn f.ia) (.t3Postr f.dd f.rn f.ia f.rm)
  | .t32, _ => .t32Size11 f.dd f.rn f.ia f.rm

/-- Decoding a 32-bit word in an instruction set (rule R88). -/
def decodeWord (iset : ISet) (w : Word) : Except DecodeError Instr :=
  if fixedBitsMatch iset w then .ok (rowOf iset (fieldsOf w)) else .error .notInScope

/-- The word four bytes at ascending addresses hold (rule R51): A32 one little-endian word; T32 two little-endian halfwords, the
first (bits 31:16) at the lower address. -/
def wordOfBytes (iset : ISet) (b0 b1 b2 b3 : Byte) : Word :=
  match iset with
  | .a32 => (b3 ++ b2) ++ (b1 ++ b0)
  | .t32 => (b1 ++ b0) ++ (b3 ++ b2)

/-- The four bytes of a word at ascending addresses (rule R51): the converse of `wordOfBytes`. -/
def bytesOfWord (iset : ISet) (w : Word) : List Byte :=
  match iset with
  | .a32 => [w.extractLsb' 0 8, w.extractLsb' 8 8, w.extractLsb' 16 8, w.extractLsb' 24 8]
  | .t32 => [w.extractLsb' 16 8, w.extractLsb' 24 8, w.extractLsb' 0 8, w.extractLsb' 8 8]

/-- Decoding bytes: the instruction and the bytes after it. -/
def decode (iset : ISet) : List Byte → Except DecodeError (Instr × List Byte)
  | b0 :: b1 :: b2 :: b3 :: rest => (decodeWord iset (wordOfBytes iset b0 b1 b2 b3)).map fun i => (i, rest)
  | _ => .error .truncated

/-- The instruction set whose patterns a word of the opcode table has: the two sets of patterns differ in bits 31:23 (rule R81). -/
def isetOfTableWord (w : Word) : ISet := if fixedBitsMatch .t32 w then .t32 else .a32

/-- A word of the opcode table, of which the table numbers `nbits` bits; the bits above are zero. -/
def tableWord (nbits w : Nat) : Word := BitVec.ofNat 32 (w % 2 ^ nbits)

/-- The instruction the decoder reads from a word as the opcode table numbers it: bit 0 is the least significant bit of the 32-bit
diagram, and a T32 word has its first halfword in bits 31:16, as the table's `match` values have it (rules R6, R80). The bytes are
laid out as the hardware stores them and given to `decode`. -/
def decodeTableWord (nbits w : Nat) : Option Instr :=
  if w % 2 ^ nbits < 2 ^ 32 then
    let word := tableWord nbits w
    let iset := isetOfTableWord word
    match decode iset (bytesOfWord iset word) with
    | .ok (i, _) => some i
    | .error _ => none
  else none

/-! ## Encoding -/

/-- The fields of an instruction (rule R81): the row's constants for `size` and, in the `nowb` and `posti` rows, for `Rm`. -/
def Instr.fields : Instr → Fields
  | .a1Nowb dd rn ia => ⟨dd, rn, 0#2, ia, 15#4⟩
  | .a1Posti dd rn ia => ⟨dd, rn, 0#2, ia, 13#4⟩
  | .a1Postr dd rn ia rm => ⟨dd, rn, 0#2, ia, rm⟩
  | .a2Nowb dd rn ia => ⟨dd, rn, 1#2, ia, 15#4⟩
  | .a2Posti dd rn ia => ⟨dd, rn, 1#2, ia, 13#4⟩
  | .a2Postr dd rn ia rm => ⟨dd, rn, 1#2, ia, rm⟩
  | .a3Nowb dd rn ia => ⟨dd, rn, 2#2, ia, 15#4⟩
  | .a3Posti dd rn ia => ⟨dd, rn, 2#2, ia, 13#4⟩
  | .a3Postr dd rn ia rm => ⟨dd, rn, 2#2, ia, rm⟩
  | .a32Size11 dd rn ia rm => ⟨dd, rn, 3#2, ia, rm⟩
  | .t1Nowb dd rn ia => ⟨dd, rn, 0#2, ia, 15#4⟩
  | .t1Posti dd rn ia => ⟨dd, rn, 0#2, ia, 13#4⟩
  | .t1Postr dd rn ia rm => ⟨dd, rn, 0#2, ia, rm⟩
  | .t2Nowb dd rn ia => ⟨dd, rn, 1#2, ia, 15#4⟩
  | .t2Posti dd rn ia => ⟨dd, rn, 1#2, ia, 13#4⟩
  | .t2Postr dd rn ia rm => ⟨dd, rn, 1#2, ia, rm⟩
  | .t3Nowb dd rn ia => ⟨dd, rn, 2#2, ia, 15#4⟩
  | .t3Posti dd rn ia => ⟨dd, rn, 2#2, ia, 13#4⟩
  | .t3Postr dd rn ia rm => ⟨dd, rn, 2#2, ia, rm⟩
  | .t32Size11 dd rn ia rm => ⟨dd, rn, 3#2, ia, rm⟩

/-- A word from its opcode bits and fields, most significant first: 31:23 opcode, 22 `D`, 21:20 `00`, 19:16 `Rn`, 15:12 `Vd`,
11:10 `size`, 9:8 `11`, 7:4 `index_align`, 3:0 `Rm` (rule R81). -/
def layOut (iset : ISet) (f : Fields) : Word :=
  (opcodeBits iset ++ f.dd.extractLsb' 4 1 ++ 0#2 ++ f.rn ++ f.dd.extractLsb' 0 4 ++ f.size ++ 3#2 ++ f.ia ++ f.rm : BitVec 32)

/-- The word of an instruction (rule R81). -/
def encode (i : Instr) : Word := layOut i.iset i.fields

/-- The bytes of an instruction at ascending addresses (rules R51, R81). -/
def encodeBytes (i : Instr) : List Byte := bytesOfWord i.iset (encode i)

/-! ## The opcode table -/

/-- A row of the table of rule R88 or of the patterns of rule R89: the words `w` with `w &&& mask = value`, and, in a `postr` row,
with `Rm` not `11x1`. -/
structure OpcodeRow where
  iset     : ISet
  value    : Word
  mask     : Word
  indexReg : Bool
deriving DecidableEq, Repr

/-- The words of a row (rule R88): for a `postr` row `(w & 0xD) != 0xD`. -/
def OpcodeRow.holds (r : OpcodeRow) (w : Word) : Bool :=
  w &&& r.mask == r.value && (!r.indexReg || w &&& 0xD#32 != 0xD#32)

/-- The row of an instruction, value and mask as rules R88 and R89 print them. -/
def Instr.row : Instr → OpcodeRow
  | .a1Nowb _ _ _ => ⟨.a32, 0xF480030F#32, 0xFFB00F0F#32, false⟩
  | .a1Posti _ _ _ => ⟨.a32, 0xF480030D#32, 0xFFB00F0F#32, false⟩
  | .a1Postr _ _ _ _ => ⟨.a32, 0xF4800300#32, 0xFFB00F00#32, true⟩
  | .a2Nowb _ _ _ => ⟨.a32, 0xF480070F#32, 0xFFB00F0F#32, false⟩
  | .a2Posti _ _ _ => ⟨.a32, 0xF480070D#32, 0xFFB00F0F#32, false⟩
  | .a2Postr _ _ _ _ => ⟨.a32, 0xF4800700#32, 0xFFB00F00#32, true⟩
  | .a3Nowb _ _ _ => ⟨.a32, 0xF4800B0F#32, 0xFFB00F0F#32, false⟩
  | .a3Posti _ _ _ => ⟨.a32, 0xF4800B0D#32, 0xFFB00F0F#32, false⟩
  | .a3Postr _ _ _ _ => ⟨.a32, 0xF4800B00#32, 0xFFB00F00#32, true⟩
  | .a32Size11 _ _ _ _ => ⟨.a32, 0xF4800F00#32, 0xFFB00F00#32, false⟩
  | .t1Nowb _ _ _ => ⟨.t32, 0xF980030F#32, 0xFFB00F0F#32, false⟩
  | .t1Posti _ _ _ => ⟨.t32, 0xF980030D#32, 0xFFB00F0F#32, false⟩
  | .t1Postr _ _ _ _ => ⟨.t32, 0xF9800300#32, 0xFFB00F00#32, true⟩
  | .t2Nowb _ _ _ => ⟨.t32, 0xF980070F#32, 0xFFB00F0F#32, false⟩
  | .t2Posti _ _ _ => ⟨.t32, 0xF980070D#32, 0xFFB00F0F#32, false⟩
  | .t2Postr _ _ _ _ => ⟨.t32, 0xF9800700#32, 0xFFB00F00#32, true⟩
  | .t3Nowb _ _ _ => ⟨.t32, 0xF9800B0F#32, 0xFFB00F0F#32, false⟩
  | .t3Posti _ _ _ => ⟨.t32, 0xF9800B0D#32, 0xFFB00F0F#32, false⟩
  | .t3Postr _ _ _ _ => ⟨.t32, 0xF9800B00#32, 0xFFB00F00#32, true⟩
  | .t32Size11 _ _ _ _ => ⟨.t32, 0xF9800F00#32, 0xFFB00F00#32, false⟩

/-! ## The assembler -/

/-- `index_align` of a line (rule R101): index, spacing and alignment packed by size. -/
def AsmLine.indexAlign (l : AsmLine) (a : BitVec 2) : BitVec 4 :=
  let spacing : Nat := if l.double then 1 else 0
  match l.size with
  | .b8 => BitVec.ofNat 4 (2 * l.index + a.toNat)
  | .b16 => BitVec.ofNat 4 (4 * l.index + 2 * spacing + a.toNat)
  | .b32 => BitVec.ofNat 4 (8 * l.index + 4 * spacing + a.toNat)

/-- The `Rm` field of a form (rule R101). -/
def AsmForm.rmField : AsmForm → BitVec 4
  | .offset => 15#4
  | .postIndexed => 13#4
  | .postIndexedBy rm => rm

/-- The `size` field (rule R96). -/
def ElemSize.sizeField : ElemSize → BitVec 2
  | .b8 => 0#2
  | .b16 => 1#2
  | .b32 => 2#2

/-- The base of rule R101: the fixed bits of the instruction set. -/
def asmBase : ISet → Word
  | .a32 => 0xF4800000#32
  | .t32 => 0xF9800000#32

/-- Assembling a line into a word, by the formula of rule R101; a line that is not well-formed has no word. -/
def assemble (iset : ISet) (l : AsmLine) : Option Word :=
  if l.wellFormed iset then
    (l.size.alignBits l.align).map fun a =>
      asmBase iset ||| ((l.first >>> 4).setWidth 32 <<< 22) ||| (l.rn.setWidth 32 <<< 16) |||
        ((l.first &&& 15#5).setWidth 32 <<< 12) ||| (l.size.sizeField.setWidth 32 <<< 10) ||| (3#32 <<< 8) |||
        ((l.indexAlign a).setWidth 32 <<< 4) ||| l.form.rmField.setWidth 32
  else none

/-- The alignment value of a line from the alignment bits of its `index_align` (rule R99); 32-bit elements have no `11`. -/
def ElemSize.alignOf : ElemSize → BitVec 4 → Option (Option Nat)
  | .b8, ia => some (if ia.getLsbD 0 then some 32 else none)
  | .b16, ia => some (if ia.getLsbD 0 then some 64 else none)
  | .b32, ia =>
    match (ia.extractLsb' 0 2).toNat with
    | 0 => some none
    | 1 => some (some 64)
    | 2 => some (some 128)
    | _ => none

/-- The line of an element size, its fields and its form (rules R97 to R99), where `index_align` is not reserved. -/
def lineOf (sz : ElemSize) (dd : BitVec 5) (rn ia : BitVec 4) (form : AsmForm) : Option AsmLine :=
  (sz.alignOf ia).map fun align =>
    match sz with
    | .b8 => ⟨false, sz, dd, false, (ia.extractLsb' 1 3).toNat, rn, align, form⟩
    | .b16 => ⟨false, sz, dd, ia.getLsbD 1, (ia.extractLsb' 2 2).toNat, rn, align, form⟩
    | .b32 => ⟨false, sz, dd, ia.getLsbD 2, (ia.extractLsb' 3 1).toNat, rn, align, form⟩

/-- The assembler line an instruction is written as; the UNDEFINED patterns and reserved alignments have none. -/
def disassemble : Instr → Option AsmLine
  | .a1Nowb dd rn ia => lineOf .b8 dd rn ia .offset
  | .a1Posti dd rn ia => lineOf .b8 dd rn ia .postIndexed
  | .a1Postr dd rn ia rm => lineOf .b8 dd rn ia (.postIndexedBy rm)
  | .a2Nowb dd rn ia => lineOf .b16 dd rn ia .offset
  | .a2Posti dd rn ia => lineOf .b16 dd rn ia .postIndexed
  | .a2Postr dd rn ia rm => lineOf .b16 dd rn ia (.postIndexedBy rm)
  | .a3Nowb dd rn ia => lineOf .b32 dd rn ia .offset
  | .a3Posti dd rn ia => lineOf .b32 dd rn ia .postIndexed
  | .a3Postr dd rn ia rm => lineOf .b32 dd rn ia (.postIndexedBy rm)
  | .a32Size11 _ _ _ _ => none
  | .t1Nowb dd rn ia => lineOf .b8 dd rn ia .offset
  | .t1Posti dd rn ia => lineOf .b8 dd rn ia .postIndexed
  | .t1Postr dd rn ia rm => lineOf .b8 dd rn ia (.postIndexedBy rm)
  | .t2Nowb dd rn ia => lineOf .b16 dd rn ia .offset
  | .t2Posti dd rn ia => lineOf .b16 dd rn ia .postIndexed
  | .t2Postr dd rn ia rm => lineOf .b16 dd rn ia (.postIndexedBy rm)
  | .t3Nowb dd rn ia => lineOf .b32 dd rn ia .offset
  | .t3Posti dd rn ia => lineOf .b32 dd rn ia .postIndexed
  | .t3Postr dd rn ia rm => lineOf .b32 dd rn ia (.postIndexedBy rm)
  | .t32Size11 _ _ _ _ => none

/-- A line's characters by the templates of rules R94 and R97 (braces by their character codes): the optional `<c>` and `<q>` are
not written, `<align>` follows a colon (rule R99). -/
def AsmLine.text (l : AsmLine) : String :=
  let inc := if l.double then 2 else 1
  let lane (k : Nat) : String := "D" ++ toString (l.first.toNat + k * inc) ++ "[" ++ toString l.index ++ "]"
  let size : String := match l.size with
    | .b8 => "8"
    | .b16 => "16"
    | .b32 => "32"
  let align : String := match l.align with
    | none => ""
    | some a => ":" ++ toString a
  let form : String := match l.form with
    | .offset => ""
    | .postIndexed => "!"
    | .postIndexedBy rm => ", R" ++ toString rm.toNat
  "VST4." ++ size ++ " " ++ String.singleton (Char.ofNat 123) ++ lane 0 ++ ", " ++ lane 1 ++ ", " ++ lane 2 ++ ", " ++ lane 3 ++
    String.singleton (Char.ofNat 125) ++ ", [R" ++ toString l.rn.toNat ++ align ++ "]" ++ form

end Sys2Proof
end

