-- ==== Sys2Proof/Machine/State.lean ====
section
/-! DEFINITION. The state of the machine, its reset value, and the reasons a step can stop. Everything here is plain data. -/

namespace Sys2Proof.Machine

/-- A byte memory: (address, byte) pairs in one canonical form (`Memory.wf`). An unlisted address holds no value (log 3). -/
abbrev Memory := List Host.Cell

/-- The launch parameters (rules R5, R210): fixed for a run, read by a step and written by none. -/
structure Launch where
  iset               : ISet              -- the instruction set words are decoded in (rule R82)
  text               : Memory            -- the program text (rule R37)
  launchMemory       : List Region       -- the ordinary writable memory (rule R61)
  advSimdRule        : AdvSimdRule       -- the open function `AdvSIMDCheck` (rule R30)
  bigEndianData      : Bool              -- data byte order (rule R50)
  strictElementAlign : Bool              -- whether unaligned elements fault (rule R53)
  memAdmit           : List AdmitEntry   -- the oracle `MemAdmit` (rules R58, R62)
  cuD4               : CuD4              -- the behaviour for `d4 > 31` (rule R154)
deriving DecidableEq, Repr

/-- The state: the spec's own state type (10_state.md) R, D, pc, Mem and PSTATE.EL; the other state the source names by name (the
DIT bit, CPACR, NSACR, HCPTR, Security state and PE mode); the launch parameters; and two fields that are the model's own,
`condAnswers` (the launch's answers to `ConditionPassed()`, rule R26) and `draws` (how many free values have been drawn). -/
structure State where
  gpr         : Vector Word 16   -- R[0..15]; R[15] is never accessed (rules R20, R22)
  dreg        : Vector Dword 32  -- D[0..31] (rule R32)
  pc          : Word             -- the address of the instruction being executed (rule R25)
  mem         : Memory           -- data memory (rule R36)
  el          : EL               -- PSTATE.EL (rule R28)
  dit         : Bool             -- the DIT bit (rule R216)
  simd        : SimdContext      -- CPACR, NSACR, HCPTR, Security state, PE mode (rule R29)
  launch      : Launch           -- the launch parameters (rule R210)
  condAnswers : List Bool        -- one answer of `CondPassed` per T32 instruction, in order; then TRUE (rule R26)
  draws       : Nat              -- free values drawn so far (log 5)
deriving DecidableEq, Repr

/-- The context of a launch with the unit enabled (rule R211): values that rule R31's note reads as full access and no trap
(log 9). -/
def simdAtReset : SimdContext where
  cpacr  := 0x00F00000#32
  nsacr  := 0x00000C00#32
  hcptr  := 0x00000000#32
  secure := true
  mode   := .supervisor

/-- The launch parameters at `State.reset`: the spec's defaults where rule R5 has one (log 10), else the values
log 8 names. -/
def launchAtReset : Launch where
  iset               := .a32
  text               := []
  launchMemory       := [⟨0, 2 ^ 32⟩]
  advSimdRule        := ⟨[], .enabled⟩
  bigEndianData      := false
  strictElementAlign := false
  memAdmit           := []
  cuD4               := .refuse

/-- The machine right after reset. The spec gives no reset value for anything and has no reset step (rules R39, R210), so every
value here is one the log names: registers zero, `pc` 0x100 as in the spec's vectors (logs 7 to 11). Memory and text list nothing. -/
def State.reset : State where
  gpr         := Vector.replicate 16 0#32
  dreg        := Vector.replicate 32 0#64
  pc          := 0x00000100#32
  mem         := []
  el          := .el3
  dit         := false
  simd        := simdAtReset
  launch      := launchAtReset
  condAnswers := []
  draws       := 0

/-- The exceptions of the page (rule R13), as raised by a statement of the pseudocode; `word` is the instruction's word. -/
inductive Exception where
  | undefinedInstruction (word : Word)
  | hypTrap (word : Word)
  | dataAbort (abort : DataAbort)
deriving DecidableEq, Repr

/-- Why the machine stops with a fault. The first three are the exceptions of the page: exception entry is not in the spec, so
`Fault(kind, info)` ends the run (rules R14, R190) and holds the information recorded and the state at the raise. The last three
are the spec's "no step": the agent is stuck. -/
inductive Fault where
  /-- Undefined Instruction (rule R180): an UNDEFINED encoding, the enable check, or `CU_d4 = Undef`. Records the pc and the word.
  Raised by every instruction's meaning. Safe: nothing is claimed of what follows (log 2). -/
  | undefinedInstruction (pc word : Word) (atRaise : State)
  /-- Trap to Hyp mode (rule R181), by the enable check only. Records the pc and the word. Raised by the eighteen encodings.
  Safe (log 2). -/
  | hypTrap (pc word : Word) (atRaise : State)
  /-- Data Abort: the Alignment fault (rule R182) or the abort of an element store (rule R183). Raised by the eighteen encodings.
  Safe (log 2). -/
  | dataAbort (abort : DataAbort) (atRaise : State)
  /-- Stuck: `MemAdmit` admits a store to an address that is not in `LaunchMemory` (rule R58). Raised by the eighteen encodings.
  Safe: no step is claimed. -/
  | outsideLaunchMemory (address : Word)
  /-- Stuck: `pc` is not a multiple of 4 (A32) or 2 (T32) at fetch (rules R25, R55). Raised by `step`. Safe. -/
  | misalignedPc (pc : Word)
  /-- Stuck: a byte at `pc .. pc + 3` is not in the program text, of which rule R37 says fetch reads nothing else. Raised by
  `step`. Safe (log 12). -/
  | fetchOutsideText (pc : Word)
deriving DecidableEq, Repr

/-- The refusal reasons: the closed list of rule R14, and the rejection of an instruction that has no meaning yet. Every one is
safe: "the chip does something in each case and the model says nothing of it". -/
inductive Refusal where
  /-- An instruction that has no meaning yet, by its mnemonic. Raised by `exec` only. Safe. -/
  | notModelled (mnemonic : String)
  /-- The word is no pattern of the page (rule R88 step 1). Raised by `step`. Safe. -/
  | notInScope
  /-- `n == 15` (rule R91). Raised by the eighteen encodings. Safe. -/
  | unpredictableBaseIsPC
  /-- `d4 > 31` with `CU_d4 = Refuse` (rule R92). Raised by the eighteen encodings. Safe. -/
  | constrainedUnpredictableRegisterList
  /-- A big-endian data configuration (rule R50). Raised by the eighteen encodings. Safe. -/
  | bigEndianData
  /-- The structure would extend past address 0xFFFFFFFF (rule R60). Raised by the eighteen encodings. Safe. -/
  | addressWrap
  /-- A stored byte lies in the program text (rule R66). Raised by the eighteen encodings. Safe. -/
  | storeIntoProgramText
  /-- T32 only: the condition fails on a word that is UNDEFINED or UNPREDICTABLE (rule R188). Raised by the nine T32 encodings and
  the T32 UNDEFINED pattern. Safe. -/
  | condFailedOnBadEncoding
deriving DecidableEq, Repr

/-- The outcome of a step. -/
abbrev Out := Host.Outcome State Fault Refusal

end Sys2Proof.Machine
end

