-- ==== Sys2Proof/Machine/Ops.lean ====
section
/-! DEFINITION. The named operations over memory and registers: the only readers and writers of the fields of State. -/

namespace Sys2Proof.Machine

/-! ## Byte memories -/

/-- The canonical form from an address up: addresses strictly rise and are addresses of the 32-bit space. An unlisted address holds
no value, so no listed byte can equal what an unlisted address reads as. -/
def Memory.wfFrom (lo : Nat) : Memory → Bool
  | [] => true
  | (a, _) :: rest => decide (lo ≤ a) && decide (a < 2 ^ 32) && Memory.wfFrom (a + 1) rest

/-- The canonical form of a byte memory. -/
def Memory.wf (m : Memory) : Bool := Memory.wfFrom 0 m

/-- What an address that no entry lists reads as: no value (rule R39: data memory is "absent elsewhere"; log 3). -/
def Memory.unlisted : Option Byte := none

/-- The byte at an address. -/
def Memory.read (m : Memory) (a : Nat) : Option Byte :=
  match m with
  | [] => Memory.unlisted
  | (x, b) :: rest => if x = a then some b else Memory.read rest a

/-- Writing one byte, in its place in the rising order. -/
def Memory.write (m : Memory) (a : Nat) (v : Byte) : Memory :=
  match m with
  | [] => [(a, v)]
  | (x, b) :: rest =>
    if a < x then (a, v) :: (x, b) :: rest
    else if a = x then (a, v) :: rest
    else (x, b) :: Memory.write rest a v

/-- Writing bytes at `addr, addr + 1, ...` (rule R12), the addresses modulo 2^32 (rule R10). -/
def Memory.writeBytes (m : Memory) (addr : Word) : List Byte → Memory
  | [] => m
  | b :: bs => Memory.writeBytes (Memory.write m addr.toNat b) (addr + 1#32) bs

/-- Reading `n` bytes at `addr, addr + 1, ...`: `MemRead`, which no rule uses (rule R12), and the fetch of the program text. -/
def Memory.readBytes (m : Memory) (addr : Word) : Nat → Option (List Byte)
  | 0 => some []
  | n + 1 =>
    match Memory.read m addr.toNat, Memory.readBytes m (addr + 1#32) n with
    | some b, some bs => some (b :: bs)
    | _, _ => none

/-- The addresses `addr, addr + 1, ..., addr + n - 1` modulo 2^32 (rule R10). -/
def addressRange (addr : Word) : Nat → List Word
  | 0 => []
  | n + 1 => addr :: addressRange (addr + 1#32) n

/-- Whether an address is in a region. -/
def Region.has (r : Region) (a : Nat) : Bool := decide (r.base ≤ a) && decide (a < r.base + r.size)

/-- Whether an address is in `LaunchMemory` (rule R61). -/
def State.inLaunchMemory (s : State) (a : Word) : Bool := s.launch.launchMemory.any fun r => Region.has r a.toNat

/-- Whether `[addr, addr + n)` meets the program text (rule R66). -/
def State.meetsText (s : State) (addr : Word) (n : Nat) : Bool :=
  s.launch.text.any fun c => decide (addr.toNat ≤ c.1) && decide (c.1 < addr.toNat + n)

/-- The byte of data memory at an address. -/
def State.readByte (s : State) (a : Word) : Option Byte := Memory.read s.mem a.toNat

/-- `MemRead(addr, n)`: n bytes of data memory, defined symmetrically to `MemWrite` and used by no rule (rule R12). -/
def State.memRead (s : State) (addr : Word) (n : Nat) : Option (List Byte) := Memory.readBytes s.mem addr n

/-- Putting a data memory into the state. -/
def State.withMem (s : State) (m : Memory) : State := { s with mem := m }

/-! ## Registers -/

/-- `R[i]`: one flat file (rules R11, R22); no register is hardwired (rule R20). -/
def State.readGpr (s : State) (i : Fin 16) : Word := s.gpr[i]

/-- `R[i] <- v` (rule R11). -/
def State.writeGpr (s : State) (i : Fin 16) (v : Word) : State := { s with gpr := s.gpr.set i v }

/-- `D[i]` (rule R11). A list that runs past D31 never comes to a read (rules R92, R159), so `i` is at most 31 wherever this is
used (`Laws.decodeBlock_ok`); above 31 there is no register, and the 0 here stands for none. -/
def State.readDreg (s : State) (i : Nat) : Dword := if h : i < 32 then s.dreg[i] else 0#64

/-- Setting `D[i]`: only the `Unknown` row of rule R154 does; a number above 31 names no register. -/
def State.writeDreg (s : State) (i : Nat) (v : Dword) : State := if h : i < 32 then { s with dreg := s.dreg.set i v } else s

/-! ## Free values -/

/-- A free byte at an address: a fresh draw; an address outside `LaunchMemory` holds nothing that could change (log 13). -/
def State.unknownByte (s : State) (a : Word) : State :=
  let drawn := { s with draws := s.draws + 1 }
  if s.inLaunchMemory a then drawn.withMem (Memory.write s.mem a.toNat (Config.freeByte s.draws)) else drawn

/-- Free bytes at every address of a list, in order, each drawn anew (rules R58, R154). -/
def State.unknownBytes (s : State) : List Word → State
  | [] => s
  | a :: rest => (s.unknownByte a).unknownBytes rest

/-- A free value in each D register of a list whose number is at most 31, each drawn anew (rule R154). -/
def State.unknownDregs (s : State) : List Nat → State
  | [] => s
  | i :: rest => State.unknownDregs { s.writeDreg i (Config.freeDword s.draws) with draws := s.draws + 1 } rest

/-- One more free value drawn. -/
def State.countDraw (s : State) : State := { s with draws := s.draws + 1 }

/-- A free value in `R[i]` (rule R154). -/
def State.unknownGpr (s : State) (i : Fin 16) : State := (s.writeGpr i (Config.freeWord s.draws)).countDraw

/-! ## The enable check, the access descriptor, the oracle of element stores -/

/-- `AdvSIMDCheck(state)` (rule R30): the open function of CPACR, NSACR, HCPTR, Security state and PE mode, as the launch gives it. -/
def State.advSimdCheck (s : State) : AdvSimdResult :=
  match s.launch.advSimdRule.cases.find? fun c => c.1 == s.simd with
  | some c => c.2
  | none => s.launch.advSimdRule.otherwise

/-- The descriptor of every element store (rule R157): a store, by an Advanced SIMD instruction, not non-temporal, not tag-checked,
privileged exactly when PSTATE.EL is not EL0. -/
def State.accDesc (s : State) : AccDesc where
  kind        := .store
  origin      := .asimd
  nontemporal := false
  tagchecked  := false
  privileged  := s.el != .el0

/-- Whether a state passes a test of `MemAdmit`. -/
def State.passes (s : State) : StateTest → Bool
  | .always => true
  | .gprIs i v => s.readGpr i == v
  | .dregIs i v => s.readDreg i == v
  | .pcIs v => s.pc == v
  | .byteIs a v => s.readByte a == v
  | .simdIs c => s.simd == c
  | .negated t => !s.passes t
  | .both t u => s.passes t && s.passes u

/-- `MemAdmit(state, accdesc, addr, size)` (rules R5, R58, R62): `some info` is `Abort(info)`, `none` is `Ok`. -/
def State.memAdmit (s : State) (acc : AccDesc) (addr : Word) (size : Nat) : Option AbortInfo :=
  (s.launch.memAdmit.find? fun e => e.accdesc == acc && e.address == addr && e.size == size && s.passes e.test).map (·.info)

/-! ## Ends of a step -/

/-- `raise`: the step ends at once with `Fault(kind, info)`, which holds the state at the raise; `pc` still points at the instruction
(rules R13, R161, R180 to R183). Entry to a handler and return from one are not in the spec (rules R190, R191). -/
def raise (e : Exception) (s : State) : Out :=
  match e with
  | .undefinedInstruction word => .fault (.undefinedInstruction s.pc word s)
  | .hypTrap word => .fault (.hypTrap s.pc word s)
  | .dataAbort abort => .fault (.dataAbort abort s)

/-- Setting the program counter: `pc <- target` (rule R11). -/
def State.setPc (s : State) (target : Word) : State := { s with pc := target }

end Sys2Proof.Machine
end

