-- ==== Sys2Proof/Machine/Flags.lean ====
section
/-! DEFINITION. The condition of an instruction. The instruction computes and writes no flag (rule R27), so this file holds the
condition gate alone. -/

namespace Sys2Proof.Machine

/-- `ConditionPassed()` (rules R26, R151): TRUE in A32; in T32 the launch's answer for this instruction, TRUE where it gives none. -/
def State.conditionPassed (s : State) (iset : ISet) : Bool :=
  match iset with
  | .a32 => true
  | .t32 => s.condAnswers.headD true

/-- A T32 instruction that ends in `Next` has used up its answer of `CondPassed` ("per T32 instruction", decision D3; log 4). -/
def State.consumeCondition (s : State) (iset : ISet) : State :=
  match iset with
  | .a32 => s
  | .t32 => { s with condAnswers := s.condAnswers.tail }

/-- The end of every step in `Next`: `pc <- pc + 4` modulo 2^32 in both instruction sets (rules R25, R161). -/
def State.retire (s : State) (iset : ISet) : State := (s.consumeCondition iset).setPc (s.pc + 4#32)

end Sys2Proof.Machine
end

