-- ==== Sys2Proof/Machine/Operands.lean ====
section
/-! DEFINITION. The Decode blocks: every operand form of the six classes (rules R84 to R92, R152, R153), and the lanes of a register
list. -/

namespace Sys2Proof.Machine

/-- The operands a Decode block assigns (rules R84 to R86): integers and booleans; `d2, d3, d4` are `d + k*inc`. -/
structure Ops where
  ebytes        : Nat
  index         : Nat
  inc           : Nat
  alignment     : Nat
  d             : Nat
  n             : Fin 16
  m             : Fin 16
  wback         : Bool
  registerIndex : Bool
deriving DecidableEq, Repr

/-- What a Decode block comes to (rule R150 step 2). -/
inductive DecodeResult where
  | ok (ops : Ops)
  | undef
  | unpredN15
  | cuD4 (ops : Ops)
deriving DecidableEq, Repr

/-- `ebytes` (rule R85). -/
def ebytesOf : ElemSize → Nat
  | .b8 => 1
  | .b16 => 2
  | .b32 => 4

/-- `index` (rule R85): `ia[3:1]`, `ia[3:2]` or `ia[3]`. -/
def indexOf : ElemSize → BitVec 4 → Nat
  | .b8, ia => (ia.extractLsb' 1 3).toNat
  | .b16, ia => (ia.extractLsb' 2 2).toNat
  | .b32, ia => (ia.extractLsb' 3 1).toNat

/-- `inc` (rule R85): 1, or the spacing bit `ia[1]` or `ia[2]` says 2. -/
def incOf : ElemSize → BitVec 4 → Nat
  | .b8, _ => 1
  | .b16, ia => if ia.getLsbD 1 then 2 else 1
  | .b32, ia => if ia.getLsbD 2 then 2 else 1

/-- `alignment` in bytes (rule R86). For 32-bit elements `4 << UInt(ia[1:0])`; the value 11 is UNDEFINED before it is used. -/
def alignmentOf : ElemSize → BitVec 4 → Nat
  | .b8, ia => if ia.getLsbD 0 then 4 else 1
  | .b16, ia => if ia.getLsbD 0 then 8 else 1
  | .b32, ia => if ia.extractLsb' 0 2 = 0#2 then 1 else 4 <<< (ia.extractLsb' 0 2).toNat

/-- `index_align[1:0] == '11'` with 32-bit elements: UNDEFINED (rule R90). -/
def reservedAlign : ElemSize → BitVec 4 → Bool
  | .b8, _ => false
  | .b16, _ => false
  | .b32, ia => ia.extractLsb' 0 2 == 3#2

/-- The operands of a class, its fields given (rules R84 to R86): `wback = (m != 15)`, `register_index = (m != 15 && m != 13)`. -/
def opsOf (sz : ElemSize) (dd : BitVec 5) (rn ia rm : BitVec 4) : Ops where
  ebytes        := ebytesOf sz
  index         := indexOf sz ia
  inc           := incOf sz ia
  alignment     := alignmentOf sz ia
  d             := dd.toNat
  n             := rn.toFin
  m             := rm.toFin
  wback         := rm != 15#4
  registerIndex := rm != 15#4 && rm != 13#4

/-- The number of the last register of the list: `d4 = d + 3*inc` (rule R84). -/
def Ops.d4 (ops : Ops) : Nat := ops.d + 3 * ops.inc

/-- The Decode block of a class (rule R153): UNDEFINED first, then `n == 15`, then `d4 > 31`. -/
def decodeBlock (sz : ElemSize) (dd : BitVec 5) (rn ia rm : BitVec 4) : DecodeResult :=
  let ops := opsOf sz dd rn ia rm
  if reservedAlign sz ia then .undef
  else if rn = 15#4 then .unpredN15
  else if 31 < ops.d4 then .cuD4 ops
  else .ok ops

/-- `Lane(x, index, ebytes)` (rule R9): the `8*ebytes`-bit field that starts at bit `8*ebytes*index`. -/
def lane (x : Dword) (index ebytes : Nat) : BitVec (8 * ebytes) := x.extractLsb' (8 * ebytes * index) (8 * ebytes)

/-- The bytes of a value of n bytes, least significant first: byte `j` is bits `8*j+7 : 8*j` (rule R50). -/
def bytesLE {n : Nat} (v : BitVec (8 * n)) : List Byte := (List.range n).map fun j => v.extractLsb' (8 * j) 8

/-- One element store: an address and the bytes that go to it. -/
structure Element where
  addr  : Word
  bytes : List Byte
deriving DecidableEq, Repr

/-- Element `k` of the structure at an address (rule R159): lane `index` of `D[d + k*inc]`, at `address + k*ebytes`. -/
def Ops.element (ops : Ops) (s : State) (address : Word) (k : Nat) : Element where
  addr  := address + BitVec.ofNat 32 (k * ops.ebytes)
  bytes := bytesLE (lane (s.readDreg (ops.d + k * ops.inc)) ops.index ops.ebytes)

/-- The four elements in the order of their stores (rule R159). -/
def Ops.elements (ops : Ops) (s : State) (address : Word) : List Element := (List.range 4).map (ops.element s address)

/-- The numbers of the four registers of the list (rule R84). -/
def Ops.regs (ops : Ops) : List Nat := (List.range 4).map fun k => ops.d + k * ops.inc

end Sys2Proof.Machine
end

