-- ==== Sys2Proof/Machine/Execute.lean ====
section
/-! DEFINITION. The one Operation that the eighteen encodings share (rules R149, R150). -/

namespace Sys2Proof.Machine

/-- How a sequence of element stores ends: all stored; `MemAdmit` aborted an element, the list being the byte addresses of that
element and of those before it; or a byte address is not in `LaunchMemory` and there is no step (rule R58). -/
inductive StoreResult where
  | done (mem : Memory)
  | abort (info : AbortInfo) (touched : List Word)
  | stuck (address : Word)
deriving DecidableEq, Repr

/-- The element stores in order (rules R58, R159); `touched` are the byte addresses of the elements already stored into `mem`, and
`MemAdmit` is asked in the state that holds `mem`. -/
def storeElements (s : State) (touched : List Word) (mem : Memory) : List Element → StoreResult
  | [] => .done mem
  | e :: rest =>
    let addrs := addressRange e.addr e.bytes.length
    match (s.withMem mem).memAdmit s.accDesc e.addr e.bytes.length with
    | some info => .abort info (touched ++ addrs)
    | none =>
      match addrs.find? fun a => !s.inLaunchMemory a with
      | some a => .stuck a
      | none => storeElements s (touched ++ addrs) (Memory.writeBytes mem e.addr e.bytes) rest

/-- The value written back (rule R160): `R[n] + R[m]`, or `R[n] + 4*ebytes`, modulo 2^32. -/
def Ops.writebackValue (ops : Ops) (s : State) : Word :=
  if ops.registerIndex then s.readGpr ops.n + s.readGpr ops.m else s.readGpr ops.n + BitVec.ofNat 32 (4 * ops.ebytes)

/-- The writeback (rule R160), after the fourth store. -/
def Ops.writeback (ops : Ops) (s : State) : State := if ops.wback then s.writeGpr ops.n (ops.writebackValue s) else s

/-- Whether the base address fails the alignment the encoding asks for, or, under `StrictElementAlign`, that of its elements
(rules R52, R53, R158). -/
def Ops.misaligned (ops : Ops) (s : State) (address : Word) : Bool :=
  address.toNat % ops.alignment != 0 || (s.launch.strictElementAlign && address.toNat % ops.ebytes != 0)

/-- Steps 10 to 12 of rule R150: the four stores, the writeback, `pc + 4`. On an abort the bytes of the aborting element and of
those before it become UNKNOWN, and nothing is written back (rules R58, R183). -/
def storeStructure (iset : ISet) (ops : Ops) (s : State) : Out :=
  match storeElements s [] s.mem (ops.elements s (s.readGpr ops.n)) with
  | .done mem => .next ((ops.writeback (s.withMem mem)).retire iset)
  | .abort info touched => raise (.dataAbort (.other info)) (s.unknownBytes touched)
  | .stuck a => .fault (.outsideLaunchMemory a)

/-- Steps 8 and 9 of rule R150, then the rest: the alignment fault with the zero-extended base address (rule R158), then the spec's
refusals, taken before any byte is written. -/
def storeChecked (iset : ISet) (ops : Ops) (s : State) : Out :=
  let address := s.readGpr ops.n
  if ops.misaligned s address then raise (.dataAbort (.alignmentFault s.accDesc (address.setWidth 64))) s
  else if s.launch.bigEndianData then .refused .bigEndianData
  else if 2 ^ 32 < address.toNat + 4 * ops.ebytes then .refused .addressWrap
  else if s.meetsText address (4 * ops.ebytes) then .refused .storeIntoProgramText
  else storeStructure iset ops s

/-- Step 7 of rule R150: the enable check, before any register or memory access (rules R30, R155). -/
def whenEnabled (word : Word) (s : State) (k : State → Out) : Out :=
  match s.advSimdCheck with
  | .undef => raise (.undefinedInstruction word) s
  | .hypTrap => raise (.hypTrap word) s
  | .enabled => k s

/-- The `Unknown` row of rule R154: every byte of the structure and every register of the list that exists take UNKNOWN values. -/
def Ops.unknownStorage (ops : Ops) (s : State) : State :=
  (s.unknownBytes (addressRange (s.readGpr ops.n) (4 * ops.ebytes))).unknownDregs ops.regs

/-- The `Unknown` row of rule R154: with writeback the base register takes an UNKNOWN value. -/
def Ops.unknownBase (ops : Ops) (s : State) : State := if ops.wback then s.unknownGpr ops.n else s

/-- The `Unknown` row of rule R154 after the enable check. Whether a Data Abort is raised is left open by note (b): a free value
says (log 6). A raise writes nothing to the base register (rules R13, R162); an Alignment fault leaves the state before the
instruction (rule R187). -/
def unknownList (iset : ISet) (ops : Ops) (s : State) : Out :=
  let stored := ops.unknownStorage s
  match Config.freeUnknownRowEnd stored.draws with
  | .completes => .next ((ops.unknownBase stored.countDraw).retire iset)
  | .alignmentFault => raise (.dataAbort (.alignmentFault s.accDesc ((s.readGpr ops.n).setWidth 64))) s
  | .abort info => raise (.dataAbort (.other info)) stored.countDraw

/-- `d4 > 31` (rules R92, R154): what the parameter `CU_d4` says. -/
def registerListPastEnd (iset : ISet) (word : Word) (ops : Ops) (s : State) : Out :=
  match s.launch.cuD4 with
  | .refuse => .refused .constrainedUnpredictableRegisterList
  | .undef => raise (.undefinedInstruction word) s
  | .nop => .next (s.retire iset)
  | .unknown => whenEnabled word s (unknownList iset ops)

/-- Steps 3 to 12 of rule R150 for a word whose Decode block came to a result. -/
def execute (iset : ISet) (word : Word) (result : DecodeResult) (s : State) : Out :=
  if s.conditionPassed iset then
    match result with
    | .undef => raise (.undefinedInstruction word) s
    | .unpredN15 => .refused .unpredictableBaseIsPC
    | .cuD4 ops => registerListPastEnd iset word ops s
    | .ok ops => whenEnabled word s (storeChecked iset ops)
  else
    match result with
    | .ok _ => .next (s.retire iset)
    | .undef => .refused .condFailedOnBadEncoding
    | .unpredN15 => .refused .condFailedOnBadEncoding
    | .cuD4 _ => .refused .condFailedOnBadEncoding

end Sys2Proof.Machine
end

