-- ==== Sys2Proof/Machine/VstA32.lean ====
section
/-! DEFINITION. The meanings of the nine A32 encodings and of the A32 pattern `size == '11'`, each the shared Operation with the
operands of its class and form. -/

namespace Sys2Proof.Machine

/-- VST4_1_A1_nowb (rule R110): 8-bit elements, the Offset form, no writeback. -/
def execA1Nowb (dd : BitVec 5) (rn ia : BitVec 4) (s : State) : Out :=
  execute .a32 (encode (.a1Nowb dd rn ia)) (decodeBlock .b8 dd rn ia 15#4) s

/-- VST4_1_A1_posti (rule R111): 8-bit elements, post-indexed by the structure size. -/
def execA1Posti (dd : BitVec 5) (rn ia : BitVec 4) (s : State) : Out :=
  execute .a32 (encode (.a1Posti dd rn ia)) (decodeBlock .b8 dd rn ia 13#4) s

/-- VST4_1_A1_postr (rule R112): 8-bit elements, post-indexed by `R[m]`. -/
def execA1Postr (dd : BitVec 5) (rn ia rm : BitVec 4) (s : State) : Out :=
  execute .a32 (encode (.a1Postr dd rn ia rm)) (decodeBlock .b8 dd rn ia rm) s

/-- VST4_1_A2_nowb (rule R113): 16-bit elements, the Offset form, no writeback. -/
def execA2Nowb (dd : BitVec 5) (rn ia : BitVec 4) (s : State) : Out :=
  execute .a32 (encode (.a2Nowb dd rn ia)) (decodeBlock .b16 dd rn ia 15#4) s

/-- VST4_1_A2_posti (rule R114): 16-bit elements, post-indexed by the structure size. -/
def execA2Posti (dd : BitVec 5) (rn ia : BitVec 4) (s : State) : Out :=
  execute .a32 (encode (.a2Posti dd rn ia)) (decodeBlock .b16 dd rn ia 13#4) s

/-- VST4_1_A2_postr (rule R115): 16-bit elements, post-indexed by `R[m]`. -/
def execA2Postr (dd : BitVec 5) (rn ia rm : BitVec 4) (s : State) : Out :=
  execute .a32 (encode (.a2Postr dd rn ia rm)) (decodeBlock .b16 dd rn ia rm) s

/-- VST4_1_A3_nowb (rule R116): 32-bit elements, the Offset form, no writeback. -/
def execA3Nowb (dd : BitVec 5) (rn ia : BitVec 4) (s : State) : Out :=
  execute .a32 (encode (.a3Nowb dd rn ia)) (decodeBlock .b32 dd rn ia 15#4) s

/-- VST4_1_A3_posti (rule R117): 32-bit elements, post-indexed by the structure size. -/
def execA3Posti (dd : BitVec 5) (rn ia : BitVec 4) (s : State) : Out :=
  execute .a32 (encode (.a3Posti dd rn ia)) (decodeBlock .b32 dd rn ia 13#4) s

/-- VST4_1_A3_postr (rule R118): 32-bit elements, post-indexed by `R[m]`. -/
def execA3Postr (dd : BitVec 5) (rn ia rm : BitVec 4) (s : State) : Out :=
  execute .a32 (encode (.a3Postr dd rn ia rm)) (decodeBlock .b32 dd rn ia rm) s

/-- The A32 pattern with `size == '11'` (rules R89, R180): UNDEFINED. -/
def execA32Size11 (dd : BitVec 5) (rn ia rm : BitVec 4) (s : State) : Out :=
  execute .a32 (encode (.a32Size11 dd rn ia rm)) .undef s

end Sys2Proof.Machine
end

