-- ==== Sys2Proof/Machine/VstT32.lean ====
section
/-! DEFINITION. The meanings of the nine T32 encodings and of the T32 pattern `size == '11'`, each the shared Operation with the
operands of its class and form. -/

namespace Sys2Proof.Machine

/-- VST4_1_T1_nowb (rule R130): 8-bit elements, the Offset form, no writeback. -/
def execT1Nowb (dd : BitVec 5) (rn ia : BitVec 4) (s : State) : Out :=
  execute .t32 (encode (.t1Nowb dd rn ia)) (decodeBlock .b8 dd rn ia 15#4) s

/-- VST4_1_T1_posti (rule R131): 8-bit elements, post-indexed by the structure size. -/
def execT1Posti (dd : BitVec 5) (rn ia : BitVec 4) (s : State) : Out :=
  execute .t32 (encode (.t1Posti dd rn ia)) (decodeBlock .b8 dd rn ia 13#4) s

/-- VST4_1_T1_postr (rule R132): 8-bit elements, post-indexed by `R[m]`. -/
def execT1Postr (dd : BitVec 5) (rn ia rm : BitVec 4) (s : State) : Out :=
  execute .t32 (encode (.t1Postr dd rn ia rm)) (decodeBlock .b8 dd rn ia rm) s

/-- VST4_1_T2_nowb (rule R133): 16-bit elements, the Offset form, no writeback. -/
def execT2Nowb (dd : BitVec 5) (rn ia : BitVec 4) (s : State) : Out :=
  execute .t32 (encode (.t2Nowb dd rn ia)) (decodeBlock .b16 dd rn ia 15#4) s

/-- VST4_1_T2_posti (rule R134): 16-bit elements, post-indexed by the structure size. -/
def execT2Posti (dd : BitVec 5) (rn ia : BitVec 4) (s : State) : Out :=
  execute .t32 (encode (.t2Posti dd rn ia)) (decodeBlock .b16 dd rn ia 13#4) s

/-- VST4_1_T2_postr (rule R135): 16-bit elements, post-indexed by `R[m]`. -/
def execT2Postr (dd : BitVec 5) (rn ia rm : BitVec 4) (s : State) : Out :=
  execute .t32 (encode (.t2Postr dd rn ia rm)) (decodeBlock .b16 dd rn ia rm) s

/-- VST4_1_T3_nowb (rule R136): 32-bit elements, the Offset form, no writeback. -/
def execT3Nowb (dd : BitVec 5) (rn ia : BitVec 4) (s : State) : Out :=
  execute .t32 (encode (.t3Nowb dd rn ia)) (decodeBlock .b32 dd rn ia 15#4) s

/-- VST4_1_T3_posti (rule R137): 32-bit elements, post-indexed by the structure size. -/
def execT3Posti (dd : BitVec 5) (rn ia : BitVec 4) (s : State) : Out :=
  execute .t32 (encode (.t3Posti dd rn ia)) (decodeBlock .b32 dd rn ia 13#4) s

/-- VST4_1_T3_postr (rule R138): 32-bit elements, post-indexed by `R[m]`. -/
def execT3Postr (dd : BitVec 5) (rn ia rm : BitVec 4) (s : State) : Out :=
  execute .t32 (encode (.t3Postr dd rn ia rm)) (decodeBlock .b32 dd rn ia rm) s

/-- The T32 pattern with `size == '11'` (rules R89, R180): UNDEFINED. With a failing condition it is refused (rule R188). -/
def execT32Size11 (dd : BitVec 5) (rn ia rm : BitVec 4) (s : State) : Out :=
  execute .t32 (encode (.t32Size11 dd rn ia rm)) .undef s

end Sys2Proof.Machine
end

