-- ==== Sys2Proof/Machine/Dispatch.lean ====
section
/-! DEFINITION. One arm per constructor of Instr, each one direct call of its meaning. -/

namespace Sys2Proof.Machine

def exec (i : Instr) (s : State) : Host.Outcome State Fault Refusal :=
  match i with
  | .a1Nowb dd rn ia => Sys2Proof.Machine.execA1Nowb dd rn ia s
  | .a1Posti dd rn ia => Sys2Proof.Machine.execA1Posti dd rn ia s
  | .a1Postr dd rn ia rm => Sys2Proof.Machine.execA1Postr dd rn ia rm s
  | .a2Nowb dd rn ia => Sys2Proof.Machine.execA2Nowb dd rn ia s
  | .a2Posti dd rn ia => Sys2Proof.Machine.execA2Posti dd rn ia s
  | .a2Postr dd rn ia rm => Sys2Proof.Machine.execA2Postr dd rn ia rm s
  | .a3Nowb dd rn ia => Sys2Proof.Machine.execA3Nowb dd rn ia s
  | .a3Posti dd rn ia => Sys2Proof.Machine.execA3Posti dd rn ia s
  | .a3Postr dd rn ia rm => Sys2Proof.Machine.execA3Postr dd rn ia rm s
  | .a32Size11 dd rn ia rm => Sys2Proof.Machine.execA32Size11 dd rn ia rm s
  | .t1Nowb dd rn ia => Sys2Proof.Machine.execT1Nowb dd rn ia s
  | .t1Posti dd rn ia => Sys2Proof.Machine.execT1Posti dd rn ia s
  | .t1Postr dd rn ia rm => Sys2Proof.Machine.execT1Postr dd rn ia rm s
  | .t2Nowb dd rn ia => Sys2Proof.Machine.execT2Nowb dd rn ia s
  | .t2Posti dd rn ia => Sys2Proof.Machine.execT2Posti dd rn ia s
  | .t2Postr dd rn ia rm => Sys2Proof.Machine.execT2Postr dd rn ia rm s
  | .t3Nowb dd rn ia => Sys2Proof.Machine.execT3Nowb dd rn ia s
  | .t3Posti dd rn ia => Sys2Proof.Machine.execT3Posti dd rn ia s
  | .t3Postr dd rn ia rm => Sys2Proof.Machine.execT3Postr dd rn ia rm s
  | .t32Size11 dd rn ia rm => Sys2Proof.Machine.execT32Size11 dd rn ia rm s

end Sys2Proof.Machine
end

