-- ==== Sys2Proof/Machine/Fetch.lean ====
section
/-! DEFINITION. Fetching an instruction's bytes from the program text, and placing an instruction where the next fetch reads. -/

namespace Sys2Proof.Machine

/-- The alignment of `pc` in bytes: 4 in A32, 2 in T32 (rules R25, R55). -/
def pcAlignment : ISet → Nat
  | .a32 => 4
  | .t32 => 2

/-- Whether `pc` is a multiple of the alignment its instruction set asks for (rules R25, R55). -/
def State.pcAligned (s : State) : Bool := s.pc.toNat % pcAlignment s.launch.iset == 0

/-- The four bytes at `pc` in the program text (rules R37, R82), where all four are there. -/
def State.fetchBytes (s : State) : Option (List Byte) := Memory.readBytes s.launch.text s.pc 4

/-- `pc` with the low bits cleared that the alignment of an instruction set asks to be zero. -/
def alignPc (iset : ISet) (pc : Word) : Word :=
  match iset with
  | .a32 => pc &&& 0xFFFFFFFC#32
  | .t32 => pc &&& 0xFFFFFFFE#32

/-- The state with an instruction of the opcode table placed as program text at `pc`, in the instruction set it belongs to; a
misaligned `pc` is aligned, since nothing is fetched there (log 12). -/
def State.placeWord (s : State) (nbits w : Nat) : State :=
  let word := tableWord nbits w
  let iset := isetOfTableWord word
  let pc := alignPc iset s.pc
  { s with
    pc := pc
    launch := { s.launch with iset := iset, text := Memory.writeBytes s.launch.text pc (bytesOfWord iset word) } }

end Sys2Proof.Machine
end

