-- ==== Sys2Proof/Machine/Step.lean ====
section
/-! DEFINITION. One step of the machine (rule R150): fetch, decode, execute. -/

namespace Sys2Proof.Machine

/-- One step (rule R150). Fetch from a misaligned `pc` or outside the program text is stuck (rules R25, R37, R55); a word that is no
pattern of the page is refused (rule R88). -/
def step (s : State) : Host.Outcome State Fault Refusal :=
  if s.pcAligned then
    match s.fetchBytes with
    | none => .fault (.fetchOutsideText s.pc)
    | some bytes =>
      match decode s.launch.iset bytes with
      | .error _ => .refused .notInScope
      | .ok (i, _) => exec i s
  else .fault (.misalignedPc s.pc)

/-- The state with an instruction word, as spec/opcode_table.json numbers it, stored where `step` fetches its next instruction. -/
def State.withFetchWord (s : State) (nbits w : Nat) : State := s.placeWord nbits w

end Sys2Proof.Machine
end

