-- ==== Sys2Proof/Safety.lean ====
section
/-! DEFINITION. What a safe run is, the invariant of the machine, and the vocabulary of the statements: the table of rule R86, the
premises and the effect of a completed store (rule R165), the frame (rule R162). -/

namespace Sys2Proof.Machine

/-! ## Safe runs and the invariant -/

/-- Every listed byte of data memory is in `LaunchMemory`: "data memory, partial: only LaunchMemory addresses" (10_state.md). -/
def State.memInLaunch (s : State) : Bool := s.mem.all fun c => s.launch.launchMemory.any fun r => Region.has r c.1

/-- The invariant: data memory and program text are canonical, data memory lies in `LaunchMemory`, and `pc` is aligned for the
instruction set (rule R25). -/
def State.inv (s : State) : Bool := Memory.wf s.mem && Memory.wf s.launch.text && s.memInLaunch && s.pcAligned

/-- `n` steps lead from one state to another, with no fault and no refusal. -/
def Runs (n : Nat) (s t : State) : Prop := Host.Core.run Sys2Proof.core n s = .next t

/-- A run of `n` steps is safe where it ends in no fault and no refusal. -/
def SafeRun (n : Nat) (s : State) : Prop := ∃ t, Runs n s t

/-! ## Operands as the spec's table gives them -/

/-- A row of the table of rule R86: element size in bytes, index, inc, alignment in bytes. -/
structure Shape where
  ebytes    : Nat
  index     : Nat
  inc       : Nat
  alignment : Nat
deriving DecidableEq, Repr

/-- The column of the table of rule R86 for 8-bit elements, transcribed row by row. -/
def tableShape8 (ia : Nat) : Option Shape :=
  match ia with
  | 0 => some ⟨1, 0, 1, 1⟩
  | 1 => some ⟨1, 0, 1, 4⟩
  | 2 => some ⟨1, 1, 1, 1⟩
  | 3 => some ⟨1, 1, 1, 4⟩
  | 4 => some ⟨1, 2, 1, 1⟩
  | 5 => some ⟨1, 2, 1, 4⟩
  | 6 => some ⟨1, 3, 1, 1⟩
  | 7 => some ⟨1, 3, 1, 4⟩
  | 8 => some ⟨1, 4, 1, 1⟩
  | 9 => some ⟨1, 4, 1, 4⟩
  | 10 => some ⟨1, 5, 1, 1⟩
  | 11 => some ⟨1, 5, 1, 4⟩
  | 12 => some ⟨1, 6, 1, 1⟩
  | 13 => some ⟨1, 6, 1, 4⟩
  | 14 => some ⟨1, 7, 1, 1⟩
  | _ => some ⟨1, 7, 1, 4⟩

/-- The column of the table of rule R86 for 16-bit elements, transcribed row by row. -/
def tableShape16 (ia : Nat) : Option Shape :=
  match ia with
  | 0 => some ⟨2, 0, 1, 1⟩
  | 1 => some ⟨2, 0, 1, 8⟩
  | 2 => some ⟨2, 0, 2, 1⟩
  | 3 => some ⟨2, 0, 2, 8⟩
  | 4 => some ⟨2, 1, 1, 1⟩
  | 5 => some ⟨2, 1, 1, 8⟩
  | 6 => some ⟨2, 1, 2, 1⟩
  | 7 => some ⟨2, 1, 2, 8⟩
  | 8 => some ⟨2, 2, 1, 1⟩
  | 9 => some ⟨2, 2, 1, 8⟩
  | 10 => some ⟨2, 2, 2, 1⟩
  | 11 => some ⟨2, 2, 2, 8⟩
  | 12 => some ⟨2, 3, 1, 1⟩
  | 13 => some ⟨2, 3, 1, 8⟩
  | 14 => some ⟨2, 3, 2, 1⟩
  | _ => some ⟨2, 3, 2, 8⟩

/-- The column of the table of rule R86 for 32-bit elements, transcribed row by row. -/
def tableShape32 (ia : Nat) : Option Shape :=
  match ia with
  | 0 => some ⟨4, 0, 1, 1⟩
  | 1 => some ⟨4, 0, 1, 8⟩
  | 2 => some ⟨4, 0, 1, 16⟩
  | 3 => none
  | 4 => some ⟨4, 0, 2, 1⟩
  | 5 => some ⟨4, 0, 2, 8⟩
  | 6 => some ⟨4, 0, 2, 16⟩
  | 7 => none
  | 8 => some ⟨4, 1, 1, 1⟩
  | 9 => some ⟨4, 1, 1, 8⟩
  | 10 => some ⟨4, 1, 1, 16⟩
  | 11 => none
  | 12 => some ⟨4, 1, 2, 1⟩
  | 13 => some ⟨4, 1, 2, 8⟩
  | 14 => some ⟨4, 1, 2, 16⟩
  | _ => none

/-- The table of rule R86; `none` is UNDEFINED. -/
def tableShape : ElemSize → BitVec 4 → Option Shape
  | .b8, ia => tableShape8 ia.toNat
  | .b16, ia => tableShape16 ia.toNat
  | .b32, ia => tableShape32 ia.toNat

/-- The fixed bits of rule R88 step 1, under the mask 0xFFB00300: `base | 0x300`. -/
def fixedBits : ISet → Word
  | .a32 => 0xF4800300#32
  | .t32 => 0xF9800300#32

/-- The fixed bits of the UNDEFINED pattern `size == '11'` of rule R89, under the mask 0xFFB00F00. -/
def size11Bits : ISet → Word
  | .a32 => 0xF4800F00#32
  | .t32 => 0xF9800F00#32

/-- The element size of a class (rule R85); the `size == '11'` patterns have no class. -/
def elemSize : Instr → Option ElemSize
  | .a1Nowb _ _ _ | .a1Posti _ _ _ | .a1Postr _ _ _ _ => some .b8
  | .a2Nowb _ _ _ | .a2Posti _ _ _ | .a2Postr _ _ _ _ => some .b16
  | .a3Nowb _ _ _ | .a3Posti _ _ _ | .a3Postr _ _ _ _ => some .b32
  | .a32Size11 _ _ _ _ => none
  | .t1Nowb _ _ _ | .t1Posti _ _ _ | .t1Postr _ _ _ _ => some .b8
  | .t2Nowb _ _ _ | .t2Posti _ _ _ | .t2Postr _ _ _ _ => some .b16
  | .t3Nowb _ _ _ | .t3Posti _ _ _ | .t3Postr _ _ _ _ => some .b32
  | .t32Size11 _ _ _ _ => none

/-- The base register `R[n]`'s number, `n = UInt(Rn)` (rule R84). -/
def baseReg (i : Instr) : Fin 16 := i.fields.rn.toFin

/-- The base address: the value of `R[n]` (rule R156). -/
def baseAddress (i : Instr) (s : State) : Word := s.readGpr (baseReg i)

/-- The number of the first register of the list, `d = UInt(D::Vd)` (rule R84). -/
def firstReg (i : Instr) : Nat := i.fields.dd.toNat

/-- An encoding that is neither UNDEFINED nor UNPREDICTABLE, with its row of the table (rules R90 to R92). -/
structure Executable (i : Instr) (shape : Shape) : Prop where
  row  : ∃ sz, elemSize i = some sz ∧ tableShape sz i.fields.ia = some shape
  base : i.fields.rn ≠ 15#4
  list : firstReg i + 3 * shape.inc ≤ 31

/-- An encoding whose register list runs past D31 (rule R92), not UNDEFINED and not with `n == 15`. -/
structure ListPastEnd (i : Instr) (shape : Shape) : Prop where
  row  : ∃ sz, elemSize i = some sz ∧ tableShape sz i.fields.ia = some shape
  base : i.fields.rn ≠ 15#4
  list : 31 < firstReg i + 3 * shape.inc

/-- A class A3 or T3 word with `index_align[1:0] == '11'` (rule R90). -/
def reservedEncoding (i : Instr) : Bool := elemSize i == some .b32 && i.fields.ia.toNat % 4 == 3

/-- The value of `R[n]` after a completed instruction, by its form (rules R160, R165). -/
def newBase (i : Instr) (shape : Shape) (s : State) : Word :=
  if i.fields.rm = 15#4 then baseAddress i s
  else if i.fields.rm = 13#4 then baseAddress i s + BitVec.ofNat 32 (4 * shape.ebytes)
  else baseAddress i s + s.readGpr i.fields.rm.toFin

/-! ## Premises and effects of a completed store -/

/-- The structure at an address passes every test before the stores (rules R52, R53, R50, R60, R66). -/
structure PassesChecks (s : State) (address : Word) (shape : Shape) : Prop where
  aligned        : address.toNat % shape.alignment = 0
  elementAligned : s.launch.strictElementAlign = false ∨ address.toNat % shape.ebytes = 0
  littleEndian   : s.launch.bigEndianData = false
  noWrap         : address.toNat + 4 * shape.ebytes ≤ 2 ^ 32
  outsideText    : ∀ a, address.toNat ≤ a → a < address.toNat + 4 * shape.ebytes → Memory.read s.launch.text a = none

/-- Byte `b` of the structure, `b` in `0 .. 4*ebytes - 1`: byte `ebytes*index + (b mod ebytes)` of
`D[d + (b div ebytes)*inc]` (rules R159, R165). -/
def structureByte (s : State) (shape : Shape) (d b : Nat) : Byte :=
  (s.readDreg (d + b / shape.ebytes * shape.inc)).extractLsb' (8 * (shape.ebytes * shape.index + b % shape.ebytes)) 8

/-- Data memory once the first `n` bytes of the structure are stored. -/
def storedPrefix (s : State) (address : Word) (shape : Shape) (d : Nat) : Nat → Memory
  | 0 => s.mem
  | n + 1 => Memory.write (storedPrefix s address shape d n) (address + BitVec.ofNat 32 n).toNat (structureByte s shape d n)

/-- What `MemAdmit` answers for element `k`: asked with the descriptor of rule R157, in the state in which the elements before `k`
are stored (rules R58, R159). -/
def admitAnswer (s : State) (address : Word) (shape : Shape) (d k : Nat) : Option AbortInfo :=
  (s.withMem (storedPrefix s address shape d (k * shape.ebytes))).memAdmit ⟨.store, .asimd, false, false, s.el != .el0⟩
    (address + BitVec.ofNat 32 (k * shape.ebytes)) shape.ebytes

/-- Element `k` is admitted by `MemAdmit` and lies in `LaunchMemory` (rule R58). -/
structure ElementAdmitted (s : State) (address : Word) (shape : Shape) (d k : Nat) : Prop where
  admits : admitAnswer s address shape d k = none
  launch : ∀ j, j < shape.ebytes → s.inLaunchMemory (address + BitVec.ofNat 32 (k * shape.ebytes + j)) = true

/-- The premises of rule R165 on the state: the unit enabled, the checks passed, the four elements admitted. -/
structure CanStore (s : State) (address : Word) (shape : Shape) (d : Nat) : Prop where
  enabled  : s.advSimdCheck = .enabled
  checks   : PassesChecks s address shape
  admitted : ∀ k, k < 4 → ElementAdmitted s address shape d k

/-- Memory after a completed store (rules R159, R165): byte `b` of the structure is byte `ebytes*index + (b mod ebytes)` of
`D[d + (b div ebytes)*inc]`, and every other byte is as before. -/
structure StructureStored (s t : State) (address : Word) (shape : Shape) (d : Nat) : Prop where
  stored : ∀ b, b < 4 * shape.ebytes → Memory.read t.mem (address.toNat + b) = some (structureByte s shape d b)
  others : ∀ a, a < address.toNat ∨ address.toNat + 4 * shape.ebytes ≤ a → Memory.read t.mem a = Memory.read s.mem a

/-- The general-purpose registers after: one holds a value, the others are as before (rule R162). -/
structure OnlyRegister (s t : State) (n : Fin 16) (v : Word) : Prop where
  value  : t.readGpr n = v
  others : ∀ i, i ≠ n → t.readGpr i = s.readGpr i

/-- What no instruction that completes changes (rule R162): PSTATE, CPACR, NSACR, HCPTR and what else the enable check consults, the
launch parameters. -/
structure SystemUnchanged (s t : State) : Prop where
  el     : t.el = s.el
  dit    : t.dit = s.dit
  simd   : t.simd = s.simd
  launch : t.launch = s.launch

/-- The launch's answers after an instruction that ended in `Next`: T32 uses one up (rule R26; log 4). -/
def answersAfter : ISet → List Bool → List Bool
  | .a32, answers => answers
  | .t32, answers => answers.tail

/-- `pc + 4`, and in T32 the launch's answer to `ConditionPassed()` used up (rules R25, R161; log 4). -/
structure Advanced (iset : ISet) (s t : State) : Prop where
  pc          : t.pc = s.pc + 4#32
  condAnswers : t.condAnswers = answersAfter iset s.condAnswers

/-- The effect of a completed instruction, whole (rule R165): the structure stored, the base register as its form says, `pc + 4`, and
nothing else changed. -/
structure StoreEffect (i : Instr) (shape : Shape) (s t : State) (base : Word) : Prop where
  memory    : StructureStored s t (baseAddress i s) shape (firstReg i)
  registers : OnlyRegister s t (baseReg i) base
  dregs     : t.dreg = s.dreg
  draws     : t.draws = s.draws
  system    : SystemUnchanged s t
  advanced  : Advanced i.iset s t

/-- An instruction completes with a value of its base register, wherever the premises of rule R165 hold. -/
def Completes (i : Instr) (sz : ElemSize) (base : Shape → State → Word) : Prop :=
  ∀ shape s, tableShape sz i.fields.ia = some shape → i.fields.rn ≠ 15#4 → firstReg i + 3 * shape.inc ≤ 31 →
    s.conditionPassed i.iset = true → CanStore s (baseAddress i s) shape (firstReg i) →
    ∃ t, exec i s = .next t ∧ StoreEffect i shape s t (base shape s)

end Sys2Proof.Machine
end

