-- ==== Sys2Proof/Certificates/Slice0/Obligations.lean ====
section
/-! DEFINITION. The statements for the provers. Each docstring names the rule of the spec it formalises. -/

open Sys2Proof Sys2Proof.Machine

/-- Nine words of the spec, one or more of every class, decode to the instructions they stand for (30_encoding.md R88, 95_test_vectors.md V2). -/
def Obligations.WordsOfEveryClassDecode : Prop :=
  decodeWord .a32 0xF480030F#32 = .ok (.a1Nowb 0 0 0) ∧
  decodeWord .a32 0xF48587CF#32 = .ok (.a2Nowb 8 5 0b1100) ∧
  decodeWord .a32 0xF48107BD#32 = .ok (.a2Posti 0 1 0b1011) ∧
  decodeWord .a32 0xF4824BA3#32 = .ok (.a3Postr 4 2 0b1010 3) ∧
  decodeWord .a32 0xF4CC9BDE#32 = .ok (.a3Postr 25 12 0b1101 14) ∧
  decodeWord .t32 0xF98423BD#32 = .ok (.t1Posti 2 4 0b1011) ∧
  decodeWord .t32 0xF98A37EE#32 = .ok (.t2Postr 3 10 0b1110 14) ∧
  decodeWord .t32 0xF9C69B4F#32 = .ok (.t3Nowb 25 6 0b0100) ∧
  decodeWord .a32 0xF4800F0F#32 = .ok (.a32Size11 0 0 0 15)

/-- Decoding the bytes of any well-formed instruction gives the instruction back (30_encoding.md R81, 30_encoding.md R88, 20_memory.md R51). -/
def Obligations.DecodeOfEncodeIsIdentity : Prop :=
  ∀ (i : Instr) (rest : List Byte), i.wellFormed = true → decode i.iset (encodeBytes i ++ rest) = .ok (i, rest)

/-- A word that decodes is the word of the instruction it decodes to (30_encoding.md R81, 30_encoding.md R88). -/
def Obligations.EncodeOfDecodeIsIdentity : Prop :=
  ∀ (iset : ISet) (w : Word) (i : Instr), decodeWord iset w = .ok i → encode i = w ∧ i.iset = iset ∧ i.wellFormed = true

/-- A word decodes exactly to the row of the table whose mask and match it has (30_encoding.md R88, R89). -/
def Obligations.DecodeFollowsOpcodeTable : Prop :=
  (∀ (iset : ISet) (w : Word) (i : Instr), decodeWord iset w = .ok i ↔ (i.row.iset = iset ∧ i.row.holds w = true ∧ i.fields = fieldsOf w)) ∧
  ∀ (iset : ISet) (w : Word), decodeWord iset w = .error .notInScope ↔
    w &&& 0xFFB00300#32 ≠ fixedBits iset

/-- Every line the assembler accepts reads back from its word; that base 15 or a list past D31 is rejected is the model's choice (log 20) (30_encoding.md R94 to R101, 90_conflicts.md C4). -/
def Obligations.AssembledLineReadsBack : Prop :=
  ∀ (iset : ISet) (l : AsmLine),
  (l.wellFormed iset = true → ∃ w i, assemble iset l = some w ∧ decodeWord iset w = .ok i ∧
    disassemble i = some { l with conditional := false }) ∧
  (l.wellFormed iset = false → assemble iset l = none)

/-- The Decode block of each class gives the operands of the sixteen-row table, or finds the word UNDEFINED or UNPREDICTABLE, in that order (30_encoding.md R84 to R87, R90 to R92, 42_vst4_execute.md R153). -/
def Obligations.DecodeBlockFollowsOperandTable : Prop :=
  ∀ (sz : ElemSize) (dd : BitVec 5) (rn ia rm : BitVec 4),
  match tableShape sz ia with
  | none => decodeBlock sz dd rn ia rm = .undef
  | some shape =>
    let ops : Ops := ⟨shape.ebytes, shape.index, shape.inc, shape.alignment, dd.toNat, rn.toFin, rm.toFin, decide (rm.toNat ≠ 15),
      decide (rm.toNat ≠ 15 ∧ rm.toNat ≠ 13)⟩
    (rn.toNat = 15 → decodeBlock sz dd rn ia rm = .unpredN15) ∧
    (rn.toNat ≠ 15 → 31 < dd.toNat + 3 * shape.inc → decodeBlock sz dd rn ia rm = .cuD4 ops) ∧
    (rn.toNat ≠ 15 → dd.toNat + 3 * shape.inc ≤ 31 → decodeBlock sz dd rn ia rm = .ok ops)

/-- A step is exec of the instruction that the bytes at pc decode to (42_vst4_execute.md R150, 30_encoding.md R82). -/
def Obligations.StepRunsDecodedInstruction : Prop :=
  ∀ (s : State) (i : Instr) (bytes rest : List Byte),
  (s.launch.iset = .a32 ∧ s.pc.toNat % 4 = 0 ∨ s.launch.iset = .t32 ∧ s.pc.toNat % 2 = 0) →
  Memory.readBytes s.launch.text s.pc 4 = some bytes → decode s.launch.iset bytes = .ok (i, rest) → i.wellFormed = true →
  step s = exec i s

/-- A table word placed by withFetchWord is the instruction the next step runs (the model's loader, log 12) (20_memory.md R51, 30_encoding.md R82). -/
def Obligations.PlacedWordRunsNext : Prop :=
  ∀ (i : Instr) (s : State), i.wellFormed = true →
  (s.withFetchWord 32 (encode i).toNat).launch.iset = i.iset ∧
  step (s.withFetchWord 32 (encode i).toNat) = exec i (s.withFetchWord 32 (encode i).toNat)

/-- A step refuses a fetched word that is none of the patterns, as not in scope (00_scope.md R4, R14, 30_encoding.md R88 step 1). -/
def Obligations.WordOutsidePatternsIsRefused : Prop :=
  ∀ (s : State) (b0 b1 b2 b3 : Byte), s.pcAligned = true → Memory.readBytes s.launch.text s.pc 4 = some [b0, b1, b2, b3] →
  (s.launch.iset = .a32 ∧ ((b3 ++ b2) ++ (b1 ++ b0) : Word) &&& 0xFFB00300#32 ≠ 0xF4800300#32 ∨
    s.launch.iset = .t32 ∧ ((b1 ++ b0) ++ (b3 ++ b2) : Word) &&& 0xFFB00300#32 ≠ 0xF9800300#32) →
  step s = .refused .notInScope

/-- A misaligned pc has no step; a fetch outside the program text is the model's named stop (log 12) (92_eei_decisions.md D12, 20_memory.md R55, 10_state.md R37). -/
def Obligations.FetchWithoutStepIsStuck : Prop :=
  ∀ s : State,
  ((s.launch.iset = .a32 ∧ s.pc.toNat % 4 ≠ 0 ∨ s.launch.iset = .t32 ∧ s.pc.toNat % 2 ≠ 0) →
    step s = .fault (.misalignedPc s.pc)) ∧
  ((s.launch.iset = .a32 ∧ s.pc.toNat % 4 = 0 ∨ s.launch.iset = .t32 ∧ s.pc.toNat % 2 = 0) →
    Memory.readBytes s.launch.text s.pc 4 = none → step s = .fault (.fetchOutsideText s.pc))

/-- VST4_1_A1_nowb, VST4_1_A2_nowb, VST4_1_A3_nowb store their structure and leave the base register (40_vst4_decode_a32.md R110, 40_vst4_decode_a32.md R113, 40_vst4_decode_a32.md R116, 42_vst4_execute.md R165, 30_encoding.md R86). -/
def Obligations.A32OffsetFormsComplete : Prop :=
  ∀ (dd : BitVec 5) (rn ia : BitVec 4),
  (Completes (.a1Nowb dd rn ia) .b8 (fun _ s => s.readGpr rn.toFin)) ∧
  (Completes (.a2Nowb dd rn ia) .b16 (fun _ s => s.readGpr rn.toFin)) ∧
  (Completes (.a3Nowb dd rn ia) .b32 (fun _ s => s.readGpr rn.toFin))

/-- VST4_1_A1_posti, VST4_1_A2_posti, VST4_1_A3_posti store their structure and add the structure size to the base register (40_vst4_decode_a32.md R111, 40_vst4_decode_a32.md R114, 40_vst4_decode_a32.md R117, 42_vst4_execute.md R165, 30_encoding.md R86). -/
def Obligations.A32PostIndexedFormsComplete : Prop :=
  ∀ (dd : BitVec 5) (rn ia : BitVec 4),
  (Completes (.a1Posti dd rn ia) .b8 (fun _ s => s.readGpr rn.toFin + 4#32)) ∧
  (Completes (.a2Posti dd rn ia) .b16 (fun _ s => s.readGpr rn.toFin + 8#32)) ∧
  (Completes (.a3Posti dd rn ia) .b32 (fun _ s => s.readGpr rn.toFin + 16#32))

/-- VST4_1_A1_postr, VST4_1_A2_postr, VST4_1_A3_postr store their structure and add R[m] to the base register (40_vst4_decode_a32.md R112, 40_vst4_decode_a32.md R115, 40_vst4_decode_a32.md R118, 42_vst4_execute.md R165, 30_encoding.md R86). -/
def Obligations.A32PostIndexedByRegisterFormsComplete : Prop :=
  ∀ (dd : BitVec 5) (rn ia rm : BitVec 4),
  (rm.toNat ≠ 13 → rm.toNat ≠ 15 → Completes (.a1Postr dd rn ia rm) .b8 (fun _ s => s.readGpr rn.toFin + s.readGpr rm.toFin)) ∧
  (rm.toNat ≠ 13 → rm.toNat ≠ 15 → Completes (.a2Postr dd rn ia rm) .b16 (fun _ s => s.readGpr rn.toFin + s.readGpr rm.toFin)) ∧
  (rm.toNat ≠ 13 → rm.toNat ≠ 15 → Completes (.a3Postr dd rn ia rm) .b32 (fun _ s => s.readGpr rn.toFin + s.readGpr rm.toFin))

/-- VST4_1_T1_nowb, VST4_1_T2_nowb, VST4_1_T3_nowb store their structure and leave R[n] (that T32 uses its answer up is the model's choice, log 4) (41_vst4_decode_t32.md R130, 41_vst4_decode_t32.md R133, 41_vst4_decode_t32.md R136, 42_vst4_execute.md R165, 30_encoding.md R86). -/
def Obligations.T32OffsetFormsComplete : Prop :=
  ∀ (dd : BitVec 5) (rn ia : BitVec 4),
  (Completes (.t1Nowb dd rn ia) .b8 (fun _ s => s.readGpr rn.toFin)) ∧
  (Completes (.t2Nowb dd rn ia) .b16 (fun _ s => s.readGpr rn.toFin)) ∧
  (Completes (.t3Nowb dd rn ia) .b32 (fun _ s => s.readGpr rn.toFin))

/-- VST4_1_T1_posti, VST4_1_T2_posti, VST4_1_T3_posti store their structure and add its size to R[n] (that T32 uses its answer up is the model's choice, log 4) (41_vst4_decode_t32.md R131, 41_vst4_decode_t32.md R134, 41_vst4_decode_t32.md R137, 42_vst4_execute.md R165, 30_encoding.md R86). -/
def Obligations.T32PostIndexedFormsComplete : Prop :=
  ∀ (dd : BitVec 5) (rn ia : BitVec 4),
  (Completes (.t1Posti dd rn ia) .b8 (fun _ s => s.readGpr rn.toFin + 4#32)) ∧
  (Completes (.t2Posti dd rn ia) .b16 (fun _ s => s.readGpr rn.toFin + 8#32)) ∧
  (Completes (.t3Posti dd rn ia) .b32 (fun _ s => s.readGpr rn.toFin + 16#32))

/-- VST4_1_T1_postr, VST4_1_T2_postr, VST4_1_T3_postr store their structure and add R[m] to R[n] (that T32 uses its answer up is the model's choice, log 4) (41_vst4_decode_t32.md R132, 41_vst4_decode_t32.md R135, 41_vst4_decode_t32.md R138, 42_vst4_execute.md R165, 30_encoding.md R86). -/
def Obligations.T32PostIndexedByRegisterFormsComplete : Prop :=
  ∀ (dd : BitVec 5) (rn ia rm : BitVec 4),
  (rm.toNat ≠ 13 → rm.toNat ≠ 15 → Completes (.t1Postr dd rn ia rm) .b8 (fun _ s => s.readGpr rn.toFin + s.readGpr rm.toFin)) ∧
  (rm.toNat ≠ 13 → rm.toNat ≠ 15 → Completes (.t2Postr dd rn ia rm) .b16 (fun _ s => s.readGpr rn.toFin + s.readGpr rm.toFin)) ∧
  (rm.toNat ≠ 13 → rm.toNat ≠ 15 → Completes (.t3Postr dd rn ia rm) .b32 (fun _ s => s.readGpr rn.toFin + s.readGpr rm.toFin))

/-- The closed form of a completed step, for all eighteen encodings (that T32 uses its answer up is the model's choice, log 4) (42_vst4_execute.md R165, 42_vst4_execute.md R150). -/
def Obligations.StepClosedForm : Prop :=
  ∀ (i : Instr) (shape : Shape) (s : State) (bytes rest : List Byte), s.pcAligned = true →
  Memory.readBytes s.launch.text s.pc 4 = some bytes → decode s.launch.iset bytes = .ok (i, rest) →
  Executable i shape → s.conditionPassed i.iset = true → CanStore s (baseAddress i s) shape (firstReg i) →
  ∃ t, step s = .next t ∧ StoreEffect i shape s t (newBase i shape s)

/-- Three execution vectors of the spec, one per element size, from State.reset with their registers (its other values are logs 8, 11, 12) (95_test_vectors.md V4 to V6, 20_memory.md R50). -/
def Obligations.EffectOfEverySizeOfStructure : Prop :=
  let d := fun (s : State) (i j k l : Nat) (v : Nat) =>
    (((s.writeDreg i (BitVec.ofNat 64 (0x0706050403020100 + v * 0x1010101010101010))).writeDreg j
      (BitVec.ofNat 64 (0x0706050403020100 + (v + (j - i)) * 0x1010101010101010))).writeDreg k
      (BitVec.ofNat 64 (0x0706050403020100 + (v + (k - i)) * 0x1010101010101010))).writeDreg l
      (BitVec.ofNat 64 (0x0706050403020100 + (v + (l - i)) * 0x1010101010101010))
  (∃ t, step ((d (State.reset.writeGpr 13 0x2001) 0 1 2 3 0).withFetchWord 32 0xF48D03ED) = .next t ∧
    t.memRead 0x2001 4 = some [0x07, 0x17, 0x27, 0x37] ∧ t.readGpr 13 = 0x2005) ∧
  (∃ t, step ((d (State.reset.writeGpr 1 0x5008) 0 2 4 6 0).withFetchWord 32 0xF48107BD) = .next t ∧
    t.memRead 0x5008 8 = some [0x04, 0x05, 0x24, 0x25, 0x44, 0x45, 0x64, 0x65] ∧ t.readGpr 1 = 0x5010) ∧
  (∃ t, step ((d ((State.reset.writeGpr 2 0x9010).writeGpr 3 0x20) 4 5 6 7 4).withFetchWord 32 0xF4824BA3) = .next t ∧
    t.memRead 0x9010 16 = some [0x44, 0x45, 0x46, 0x47, 0x54, 0x55, 0x56, 0x57, 0x64, 0x65, 0x66, 0x67, 0x74, 0x75, 0x76, 0x77] ∧
    t.readGpr 2 = 0x9030)

/-- A T32 encoding whose condition fails only advances (using its answer up: log 4); A32 ignores the answers (UNKNOWN draws compared: log 5) (42_vst4_execute.md R151, 10_state.md R26). -/
def Obligations.FailedConditionOnlyAdvances : Prop :=
  (∀ (i : Instr) (shape : Shape) (s : State), i.iset = .t32 → Executable i shape → s.condAnswers.head? = some false →
    exec i s = .next { s with pc := s.pc + 4#32, condAnswers := s.condAnswers.tail }) ∧
  ∀ (i : Instr) (s t : State) (answers : List Bool), i.iset = .a32 → exec i s = .next t →
    exec i { s with condAnswers := answers } = .next { t with condAnswers := answers }

/-- A T32 word that is UNDEFINED or UNPREDICTABLE is refused where its condition fails; else it only advances (using the answer up: log 4) (60_exceptions.md R188). -/
def Obligations.FailedConditionOnBadEncodingIsRefused : Prop :=
  (∀ (i : Instr) (s : State), i.iset = .t32 → s.condAnswers.head? = some false →
    (elemSize i = none ∨ reservedEncoding i = true ∨ i.fields.rn = 15#4 ∨ ∃ shape, ListPastEnd i shape) →
    exec i s = .refused .condFailedOnBadEncoding) ∧
  (∀ (i : Instr) (shape : Shape) (s : State), i.iset = .t32 → s.condAnswers.head? = some false → Executable i shape →
    exec i s = .next { s with pc := s.pc + 4#32, condAnswers := s.condAnswers.tail }) ∧
  ∀ (i : Instr) (s : State), i.iset = .a32 → exec i s ≠ .refused .condFailedOnBadEncoding

/-- The two size == 11 patterns raise Undefined Instruction (R89). -/
def Obligations.Size11PatternsAreUndefined : Prop :=
  (∀ (iset : ISet) (w : Word), w &&& 0xFFB00F00#32 = size11Bits iset →
    ∃ i, decodeWord iset w = .ok i ∧ elemSize i = none ∧ encode i = w) ∧
  (∀ (dd : BitVec 5) (rn ia rm : BitVec 4) (s : State),
    exec (.a32Size11 dd rn ia rm) s = .fault (.undefinedInstruction s.pc (encode (.a32Size11 dd rn ia rm)) s)) ∧
  ∀ (dd : BitVec 5) (rn ia rm : BitVec 4) (s : State), s.conditionPassed .t32 = true →
    exec (.t32Size11 dd rn ia rm) s = .fault (.undefinedInstruction s.pc (encode (.t32Size11 dd rn ia rm)) s)

/-- Class A3 and T3 words with index_align[1:0] == 11 are UNDEFINED before anything else; the other classes have no reserved value (R90). -/
def Obligations.ReservedAlignmentIsUndefined : Prop :=
  (∀ (i : Instr) (s : State), reservedEncoding i = true → s.conditionPassed i.iset = true →
    exec i s = .fault (.undefinedInstruction s.pc (encode i) s)) ∧
  ∀ (sz : ElemSize) (dd : BitVec 5) (rn ia rm : BitVec 4), sz ≠ .b32 → decodeBlock sz dd rn ia rm ≠ .undef

/-- An encoding with n == 15 that is not UNDEFINED is refused, as the spec's decision D13 says (30_encoding.md R91 ("This spec refuses"), 92_eei_decisions.md D13). -/
def Obligations.BaseFifteenIsRefused : Prop :=
  ∀ (i : Instr) (s : State), elemSize i ≠ none → reservedEncoding i = false → i.fields.rn = 15#4 →
  s.conditionPassed i.iset = true → exec i s = .refused .unpredictableBaseIsPC

/-- d4 > 31: refused, UNDEFINED or a NOP as CU_d4 says, or UNKNOWN (model's choices: answer used up, log 4; how Unknown ends, logs 6, 13) (30_encoding.md R92, 42_vst4_execute.md R154). -/
def Obligations.ListPastEndFollowsParameter : Prop :=
  ∀ (i : Instr) (shape : Shape) (s : State), ListPastEnd i shape → s.conditionPassed i.iset = true →
  (shape.inc = 1 → 29 ≤ firstReg i) ∧ (shape.inc = 2 → 26 ≤ firstReg i) ∧ (shape.inc = 1 ∨ shape.inc = 2) ∧
  (s.launch.cuD4 = .refuse → exec i s = .refused .constrainedUnpredictableRegisterList) ∧
  (s.launch.cuD4 = .undef → exec i s = .fault (.undefinedInstruction s.pc (encode i) s)) ∧
  (s.launch.cuD4 = .nop → ∃ t, exec i s = .next t ∧ Advanced i.iset s t ∧
    t = { s with pc := t.pc, condAnswers := t.condAnswers }) ∧
  (s.launch.cuD4 = .unknown → s.advSimdCheck = .enabled → (∃ t, exec i s = .next t) ∨ ∃ a r, exec i s = .fault (.dataAbort a r))

/-- d4 > 31 with CU_d4 = Unknown: what stays, whatever the UNKNOWN values are (model's choices: answer used up, log 4; its ends, logs 6, 13) (42_vst4_execute.md R154). -/
def Obligations.UnknownListFrame : Prop :=
  ∀ (i : Instr) (shape : Shape) (s : State), ListPastEnd i shape → s.conditionPassed i.iset = true → s.launch.cuD4 = .unknown →
  (s.advSimdCheck = .undef → exec i s = .fault (.undefinedInstruction s.pc (encode i) s)) ∧
  (s.advSimdCheck = .hypTrap → exec i s = .fault (.hypTrap s.pc (encode i) s)) ∧
  (s.advSimdCheck = .enabled → (∃ a r, exec i s = .fault (.dataAbort a r)) ∨
    ∃ t, exec i s = .next t ∧ SystemUnchanged s t ∧ Advanced i.iset s t ∧
      (∀ a, (∀ b, b < 4 * shape.ebytes → (baseAddress i s + BitVec.ofNat 32 b).toNat ≠ a) →
        Memory.read t.mem a = Memory.read s.mem a) ∧
      (∀ r, (∀ k, k < 4 → firstReg i + k * shape.inc ≠ r) → t.readDreg r = s.readDreg r) ∧
      ∀ r, (r ≠ baseReg i ∨ i.fields.rm = 15#4) → t.readGpr r = s.readGpr r)

/-- The enable check raises Undefined Instruction or the Hyp trap before the base register or memory is looked at (42_vst4_execute.md R155, 10_state.md R30, 60_exceptions.md R181). -/
def Obligations.DisabledUnitRaisesBeforeAccess : Prop :=
  ∀ (i : Instr) (shape : Shape) (s : State), Executable i shape → s.conditionPassed i.iset = true →
  (s.advSimdCheck = .undef → exec i s = .fault (.undefinedInstruction s.pc (encode i) s)) ∧
  (s.advSimdCheck = .hypTrap → exec i s = .fault (.hypTrap s.pc (encode i) s))

/-- A base address that fails the alignment asked for raises the Alignment fault with that address, nothing changed (R158). -/
def Obligations.MisalignedBaseRaisesAlignmentFault : Prop :=
  ∀ (i : Instr) (shape : Shape) (s : State), Executable i shape → s.conditionPassed i.iset = true → s.advSimdCheck = .enabled →
  (baseAddress i s).toNat % shape.alignment ≠ 0 →
  1 < shape.alignment ∧
  exec i s = .fault (.dataAbort (.alignmentFault ⟨.store, .asimd, false, false, decide (s.el ≠ .el0)⟩
    ((0#32 ++ baseAddress i s : BitVec 64))) s)

/-- Under StrictElementAlign an element address that is not a multiple of ebytes raises the Alignment fault at the base address (20_memory.md R53, 92_eei_decisions.md D8). -/
def Obligations.StrictElementAlignmentFaults : Prop :=
  ∀ (i : Instr) (shape : Shape) (s : State), Executable i shape → s.conditionPassed i.iset = true → s.advSimdCheck = .enabled →
  (baseAddress i s).toNat % shape.alignment = 0 → (baseAddress i s).toNat % shape.ebytes ≠ 0 →
  (s.launch.strictElementAlign = true →
    exec i s = .fault (.dataAbort (.alignmentFault ⟨.store, .asimd, false, false, decide (s.el ≠ .el0)⟩
      ((baseAddress i s).setWidth 64)) s)) ∧
  (s.launch.strictElementAlign = false → CanStore s (baseAddress i s) shape (firstReg i) →
    ∃ t, exec i s = .next t ∧ StructureStored s t (baseAddress i s) shape (firstReg i))

/-- Big-endian data, a structure past the top of memory and a store into the program text are refused, in this order, after the alignment fault (42_vst4_execute.md R150 step 9, 20_memory.md R50, R60, R66). -/
def Obligations.RefusalsBeforeAnyStore : Prop :=
  ∀ (i : Instr) (shape : Shape) (s : State), Executable i shape → s.conditionPassed i.iset = true → s.advSimdCheck = .enabled →
  (baseAddress i s).toNat % shape.alignment = 0 →
  (s.launch.strictElementAlign = false ∨ (baseAddress i s).toNat % shape.ebytes = 0) →
  (s.launch.bigEndianData = true → exec i s = .refused .bigEndianData) ∧
  (s.launch.bigEndianData = false → 2 ^ 32 < (baseAddress i s).toNat + 4 * shape.ebytes → exec i s = .refused .addressWrap) ∧
  (s.launch.bigEndianData = false → (baseAddress i s).toNat + 4 * shape.ebytes ≤ 2 ^ 32 →
    (∃ a, (baseAddress i s).toNat ≤ a ∧ a < (baseAddress i s).toNat + 4 * shape.ebytes ∧
      (Memory.read s.launch.text a).isSome = true) → exec i s = .refused .storeIntoProgramText)

/-- The first element that MemAdmit aborts raises DataAbort(other): later elements untouched, no writeback, pc at the instruction (20_memory.md R58, 60_exceptions.md R183). -/
def Obligations.AbortedElementEndsTheInstruction : Prop :=
  ∀ (i : Instr) (shape : Shape) (s : State) (k : Nat) (info : AbortInfo), Executable i shape → s.conditionPassed i.iset = true →
  s.advSimdCheck = .enabled → PassesChecks s (baseAddress i s) shape → k < 4 →
  (∀ j, j < k → ElementAdmitted s (baseAddress i s) shape (firstReg i) j) →
  admitAnswer s (baseAddress i s) shape (firstReg i) k = some info →
  ∃ r, exec i s = .fault (.dataAbort (.other info) r) ∧ r.gpr = s.gpr ∧ r.dreg = s.dreg ∧ r.pc = s.pc ∧
    r.condAnswers = s.condAnswers ∧ SystemUnchanged s r ∧
    ∀ a, (a < (baseAddress i s).toNat ∨ (baseAddress i s).toNat + (k + 1) * shape.ebytes ≤ a) →
      Memory.read r.mem a = Memory.read s.mem a

/-- A store that MemAdmit admits to an address outside LaunchMemory has no step (20_memory.md R58, R59, 92_eei_decisions.md D18). -/
def Obligations.StoreOutsideLaunchMemoryIsStuck : Prop :=
  ∀ (i : Instr) (shape : Shape) (s : State) (k : Nat), Executable i shape → s.conditionPassed i.iset = true →
  s.advSimdCheck = .enabled → PassesChecks s (baseAddress i s) shape → k < 4 →
  (∀ j, j < k → ElementAdmitted s (baseAddress i s) shape (firstReg i) j) →
  admitAnswer s (baseAddress i s) shape (firstReg i) k = none →
  (∃ j, j < shape.ebytes ∧ s.inLaunchMemory (baseAddress i s + BitVec.ofNat 32 (k * shape.ebytes + j)) = false) →
  ∃ j, j < shape.ebytes ∧ s.inLaunchMemory (baseAddress i s + BitVec.ofNat 32 (k * shape.ebytes + j)) = false ∧
    exec i s = .fault (.outsideLaunchMemory (baseAddress i s + BitVec.ofNat 32 (k * shape.ebytes + j)))

/-- Undefined Instruction has four causes only, and leaves everything as before the step (60_exceptions.md R180, R187). -/
def Obligations.CausesOfUndefinedInstruction : Prop :=
  ∀ (i : Instr) (s r : State) (pc w : Word), exec i s = .fault (.undefinedInstruction pc w r) →
  pc = s.pc ∧ w = encode i ∧ r = s ∧ s.conditionPassed i.iset = true ∧
  (elemSize i = none ∨ reservedEncoding i = true ∨ s.advSimdCheck = .undef ∨
    ((∃ shape, ListPastEnd i shape) ∧ s.launch.cuD4 = .undef))

/-- The Hyp trap is raised by the enable check only, with everything as before the step (60_exceptions.md R181, R187). -/
def Obligations.HypTrapOnlyFromEnableCheck : Prop :=
  ∀ (i : Instr) (s r : State) (pc w : Word), exec i s = .fault (.hypTrap pc w r) →
  pc = s.pc ∧ w = encode i ∧ r = s ∧ s.advSimdCheck = .hypTrap ∧ s.conditionPassed i.iset = true ∧
  ((∃ shape, Executable i shape) ∨ ((∃ shape, ListPastEnd i shape) ∧ s.launch.cuD4 = .unknown))

/-- Every Alignment fault records the base address and the store descriptor, and leaves everything as before the step (60_exceptions.md R182, R187). -/
def Obligations.AlignmentFaultRecordsBaseAddress : Prop :=
  ∀ (i : Instr) (s r : State) (acc : AccDesc) (address : Dword), exec i s = .fault (.dataAbort (.alignmentFault acc address) r) →
  r = s ∧ address = (0#32 ++ baseAddress i s : BitVec 64) ∧ acc = ⟨.store, .asimd, false, false, decide (s.el ≠ .el0)⟩ ∧
  s.conditionPassed i.iset = true ∧ s.advSimdCheck = .enabled ∧
  ((∃ shape, Executable i shape ∧ ((baseAddress i s).toNat % shape.alignment ≠ 0 ∨
      (s.launch.strictElementAlign = true ∧ (baseAddress i s).toNat % shape.ebytes ≠ 0))) ∨
    ((∃ shape, ListPastEnd i shape) ∧ s.launch.cuD4 = .unknown))

/-- An instruction is refused only for the reasons of the closed list, each in its own case (00_scope.md R14, 42_vst4_execute.md R150). -/
def Obligations.ExecRefusesOnlyForTheListedReasons : Prop :=
  ∀ (i : Instr) (s : State) (reason : Refusal), exec i s = .refused reason →
  (reason = .unpredictableBaseIsPC ∧ i.fields.rn = 15#4) ∨
  (reason = .constrainedUnpredictableRegisterList ∧ (∃ shape, ListPastEnd i shape) ∧ s.launch.cuD4 = .refuse) ∨
  (reason = .bigEndianData ∧ s.launch.bigEndianData = true) ∨
  (reason = .addressWrap ∧ ∃ shape, Executable i shape ∧ 2 ^ 32 < (baseAddress i s).toNat + 4 * shape.ebytes) ∨
  (reason = .storeIntoProgramText ∧ ∃ shape a, Executable i shape ∧ (baseAddress i s).toNat ≤ a ∧
    a < (baseAddress i s).toNat + 4 * shape.ebytes ∧ (Memory.read s.launch.text a).isSome = true) ∨
  (reason = .condFailedOnBadEncoding ∧ i.iset = .t32 ∧ s.conditionPassed .t32 = false ∧ ¬ ∃ shape, Executable i shape)

/-- Every instruction that completes advances pc by 4 and changes no system state (that T32 uses its answer up is the model's choice, log 4) (42_vst4_execute.md R161, R162, 10_state.md R27, R28, R29). -/
def Obligations.EveryCompletionKeepsSystemState : Prop :=
  ∀ (i : Instr) (s t : State), exec i s = .next t → SystemUnchanged s t ∧ Advanced i.iset s t

/-- What every outcome leaves unchanged: registers other than R[n], D registers, memory outside the structure, system state (42_vst4_execute.md R162). -/
def Obligations.RegisterAndMemoryFrame : Prop :=
  ∀ (i : Instr) (s : State),
  let kept := fun (t : State) =>
    SystemUnchanged s t ∧ (∀ r, r ≠ baseReg i → t.readGpr r = s.readGpr r) ∧
    (¬ ((∃ shape, ListPastEnd i shape) ∧ s.launch.cuD4 = .unknown) → t.dreg = s.dreg) ∧
    (∀ shape, ListPastEnd i shape → ∀ r, (∀ k, k < 4 → firstReg i + k * shape.inc ≠ r) → t.readDreg r = s.readDreg r) ∧
    ∀ a, (∀ sz shape, elemSize i = some sz → tableShape sz i.fields.ia = some shape → ∀ b, b < 4 * shape.ebytes →
      (baseAddress i s + BitVec.ofNat 32 b).toNat ≠ a) → Memory.read t.mem a = Memory.read s.mem a
  (∀ t, exec i s = .next t → kept t ∧ (i.fields.rm = 15#4 → elemSize i ≠ none → t.gpr = s.gpr)) ∧
  ∀ r, ((∃ pc w, exec i s = .fault (.undefinedInstruction pc w r)) ∨ (∃ pc w, exec i s = .fault (.hypTrap pc w r)) ∨
      ∃ a, exec i s = .fault (.dataAbort a r)) →
    kept r ∧ r.pc = s.pc ∧ r.gpr = s.gpr

/-- No instruction reads data memory: with any other it completes alike, storing the same bytes (UNKNOWN draws compared: log 5) (42_vst4_execute.md R162, R164, 20_memory.md R56). -/
def Obligations.DataMemoryIsNotRead : Prop :=
  ∀ (i : Instr) (s t : State) (m : Memory),
  (∀ m' acc address size, (s.withMem m').memAdmit acc address size = s.memAdmit acc address size) → exec i s = .next t →
  ∃ m', exec i (s.withMem m) = .next (t.withMem m') ∧
    ∀ a, Memory.read m' a = Memory.read t.mem a ∨ (Memory.read m' a = Memory.read m a ∧ Memory.read t.mem a = Memory.read s.mem a)

/-- The Exception level acts on completion only through the privileged bit that MemAdmit sees (UNKNOWN draws compared: log 5) (60_exceptions.md R193, 42_vst4_execute.md R157). -/
def Obligations.ExceptionLevelActsThroughMemAdmitOnly : Prop :=
  ∀ (i : Instr) (s t : State) (e : EL),
  (∀ m address size, (s.withMem m).memAdmit ⟨.store, .asimd, false, false, true⟩ address size =
    (s.withMem m).memAdmit ⟨.store, .asimd, false, false, false⟩ address size) →
  exec i s = .next t → exec i { s with el := e } = .next { t with el := e }

/-- The DIT bit has no effect on any step (that it is state at all is log 9; UNKNOWN draws of two executions compared: log 5) (70_reset_and_hazards.md R216). -/
def Obligations.DitBitHasNoEffect : Prop :=
  ∀ (s t : State) (b : Bool), step s = .next t → step { s with dit := b } = .next { t with dit := b }

/-- State.reset meets the invariant (its values are the model's choices, logs 7 to 11) (70_reset_and_hazards.md R210, 10_state.md R25, R39). -/
def Obligations.ResetMeetsInvariant : Prop :=
  State.reset.inv = true ∧ State.reset.mem = [] ∧ State.reset.launch.text = [] ∧ State.reset.advSimdCheck = .enabled

/-- Every step keeps memory canonical and in LaunchMemory (log 13 for UNKNOWN bytes), the text canonical and pc aligned (10_state.md R25, 42_vst4_execute.md R161, 20_memory.md R58). -/
def Obligations.StepKeepsInvariant : Prop :=
  ∀ s t : State, s.inv = true → step s = .next t → t.inv = true

/-- A run of n completed steps is a straight line: pc + 4n, with the text, all parameters and system state as at the start (42_vst4_execute.md R161, 10_state.md R25, R37, 60_exceptions.md R193). -/
def Obligations.RunAdvancesStraightLine : Prop :=
  ∀ (n : Nat) (s t : State), Runs n s t →
  t.pc = s.pc + BitVec.ofNat 32 (4 * n) ∧ SystemUnchanged s t ∧ (s.inv = true → t.inv = true)

/-- After DataAbort(other) the instruction can be executed again: it rewrites every UNKNOWN byte (60_exceptions.md R187, 42_vst4_execute.md R159). -/
def Obligations.AbortedInstructionIsRestartable : Prop :=
  ∀ (i : Instr) (s r t : State) (info : AbortInfo), ¬ ((∃ shape, ListPastEnd i shape) ∧ s.launch.cuD4 = .unknown) →
  exec i s = .fault (.dataAbort (.other info) r) →
  exec i { s with launch := { s.launch with memAdmit := [] } } = .next t →
  ∃ t', exec i { r with launch := { r.launch with memAdmit := [] } } = .next t' ∧ t'.gpr = t.gpr ∧ t'.dreg = t.dreg ∧ t'.pc = t.pc ∧
    ∀ a, Memory.read t'.mem a = Memory.read t.mem a

/-- A byte written to memory reads back, and a write leaves every other byte alone and keeps the canonical form (00_scope.md R12, 20_memory.md R57, R63). -/
def Obligations.MemoryWriteReadsBack : Prop :=
  ∀ (m : Memory) (a : Nat) (v : Byte), a < 2 ^ 32 →
  Memory.read (Memory.write m a v) a = some v ∧ (∀ a', a' ≠ a → Memory.read (Memory.write m a v) a' = Memory.read m a') ∧
  (Memory.wf m = true → Memory.wf (Memory.write m a v) = true)
end

