-- ==== Sys2Proof/Laws/Decode.lean ====
section
/-! SUPPORT. The laws of the word layout: fields read back what `layOut` placed, and bytes read back as their word. -/

namespace Sys2Proof

/-- The fields of a laid-out word are those it was laid out from. -/
theorem fieldsOf_layOut (iset : ISet) (f : Fields) : fieldsOf (layOut iset f) = f := by
  obtain ⟨dd, rn, size, ia, rm⟩ := f
  simp only [fieldsOf, Fields.mk.injEq]
  refine ⟨?_, ?_, ?_, ?_, ?_⟩ <;> apply BitVec.eq_of_getLsbD_eq <;> intro k hk <;> interval_cases k <;>
    simp only [layOut, BitVec.getLsbD_append, BitVec.getLsbD_extractLsb'] <;> simp

/-- A laid-out word has the fixed bits of its instruction set. -/
theorem fixedBitsMatch_layOut (iset : ISet) (f : Fields) : fixedBitsMatch iset (layOut iset f) = true := by
  simp only [fixedBitsMatch, Bool.and_eq_true, beq_iff_eq]
  refine ⟨⟨?_, ?_⟩, ?_⟩ <;> apply BitVec.eq_of_getLsbD_eq <;> intro k hk <;> interval_cases k <;>
    simp only [layOut, BitVec.getLsbD_append, BitVec.getLsbD_extractLsb'] <;> simp

/-- Bit `k` of a slice of a word. -/
theorem getLsbD_of_slice {w : Word} {lo n k : Nat} {v : BitVec n} (h : w.extractLsb' lo n = v) (hk : k < n) :
    w.getLsbD (lo + k) = v.getLsbD k := by
  rw [← h, BitVec.getLsbD_extractLsb', decide_eq_true hk, Bool.true_and]

/-- A word with the fixed bits of an instruction set is laid out from its fields. -/
theorem layOut_fieldsOf {iset : ISet} {w : Word} (h : fixedBitsMatch iset w = true) : layOut iset (fieldsOf w) = w := by
  simp only [fixedBitsMatch, Bool.and_eq_true, beq_iff_eq] at h
  obtain ⟨⟨h1, h2⟩, h3⟩ := h
  have e1 : ∀ k, k < 9 → w.getLsbD (23 + k) = (opcodeBits iset).getLsbD k := fun k hk => getLsbD_of_slice h1 hk
  have e2 : ∀ k, k < 2 → w.getLsbD (20 + k) = (0#2).getLsbD k := fun k hk => getLsbD_of_slice h2 hk
  have e3 : ∀ k, k < 2 → w.getLsbD (8 + k) = (3#2).getLsbD k := fun k hk => getLsbD_of_slice h3 hk
  have e1s : ∀ k, (hk : k < 9) → (opcodeBits iset)[k] = w.getLsbD (23 + k) := fun k hk => by
    rw [e1 k hk, BitVec.getLsbD_eq_getElem hk]
  apply BitVec.eq_of_getLsbD_eq
  intro k hk
  have a0 := e2 0 (by omega)
  have a1 := e2 1 (by omega)
  have b0 := e3 0 (by omega)
  have b1 := e3 1 (by omega)
  simp at a0 a1 b0 b1
  interval_cases k <;>
    simp only [layOut, fieldsOf, BitVec.getLsbD_append, BitVec.getLsbD_extractLsb'] <;> simp [e1s, a0, a1, b0, b1]

/-- The bytes of a word, read in the same instruction set, are the word (rule R51). -/
theorem wordOfBytes_bytesOfWord (w : Word) :
    wordOfBytes .a32 (w.extractLsb' 0 8) (w.extractLsb' 8 8) (w.extractLsb' 16 8) (w.extractLsb' 24 8) = w ∧
    wordOfBytes .t32 (w.extractLsb' 16 8) (w.extractLsb' 24 8) (w.extractLsb' 0 8) (w.extractLsb' 8 8) = w := by
  constructor <;> apply BitVec.eq_of_getLsbD_eq <;> intro k hk <;> interval_cases k <;>
    simp only [wordOfBytes, BitVec.getLsbD_append, BitVec.getLsbD_extractLsb'] <;> simp

/-- Decoding the bytes of a word is decoding the word. -/
theorem decode_bytesOfWord (iset : ISet) (w : Word) (rest : List Byte) :
    decode iset (bytesOfWord iset w ++ rest) = (decodeWord iset w).map fun i => (i, rest) := by
  cases iset
  · simp only [bytesOfWord, decode, List.cons_append, List.nil_append, (wordOfBytes_bytesOfWord w).1]
  · simp only [bytesOfWord, decode, List.cons_append, List.nil_append, (wordOfBytes_bytesOfWord w).2]

end Sys2Proof
end

