-- ==== Sys2Proof/Laws/State.lean ====
section
/-! SUPPORT. One lemma per field per update of the state, so that no later proof unfolds a record update; and the registers' laws. -/

namespace Sys2Proof.Machine

variable (s : State)

@[simp] theorem State.withMem_gpr (m : Memory) : (s.withMem m).gpr = s.gpr := rfl
@[simp] theorem State.withMem_dreg (m : Memory) : (s.withMem m).dreg = s.dreg := rfl
@[simp] theorem State.withMem_pc (m : Memory) : (s.withMem m).pc = s.pc := rfl
@[simp] theorem State.withMem_mem (m : Memory) : (s.withMem m).mem = m := rfl
@[simp] theorem State.withMem_el (m : Memory) : (s.withMem m).el = s.el := rfl
@[simp] theorem State.withMem_dit (m : Memory) : (s.withMem m).dit = s.dit := rfl
@[simp] theorem State.withMem_simd (m : Memory) : (s.withMem m).simd = s.simd := rfl
@[simp] theorem State.withMem_launch (m : Memory) : (s.withMem m).launch = s.launch := rfl
@[simp] theorem State.withMem_condAnswers (m : Memory) : (s.withMem m).condAnswers = s.condAnswers := rfl
@[simp] theorem State.withMem_draws (m : Memory) : (s.withMem m).draws = s.draws := rfl

@[simp] theorem State.writeGpr_gpr (i : Fin 16) (v : Word) : (s.writeGpr i v).gpr = s.gpr.set i v := rfl
@[simp] theorem State.writeGpr_dreg (i : Fin 16) (v : Word) : (s.writeGpr i v).dreg = s.dreg := rfl
@[simp] theorem State.writeGpr_pc (i : Fin 16) (v : Word) : (s.writeGpr i v).pc = s.pc := rfl
@[simp] theorem State.writeGpr_mem (i : Fin 16) (v : Word) : (s.writeGpr i v).mem = s.mem := rfl
@[simp] theorem State.writeGpr_el (i : Fin 16) (v : Word) : (s.writeGpr i v).el = s.el := rfl
@[simp] theorem State.writeGpr_dit (i : Fin 16) (v : Word) : (s.writeGpr i v).dit = s.dit := rfl
@[simp] theorem State.writeGpr_simd (i : Fin 16) (v : Word) : (s.writeGpr i v).simd = s.simd := rfl
@[simp] theorem State.writeGpr_launch (i : Fin 16) (v : Word) : (s.writeGpr i v).launch = s.launch := rfl
@[simp] theorem State.writeGpr_condAnswers (i : Fin 16) (v : Word) : (s.writeGpr i v).condAnswers = s.condAnswers := rfl
@[simp] theorem State.writeGpr_draws (i : Fin 16) (v : Word) : (s.writeGpr i v).draws = s.draws := rfl

@[simp] theorem State.countDraw_gpr : s.countDraw.gpr = s.gpr := rfl
@[simp] theorem State.countDraw_dreg : s.countDraw.dreg = s.dreg := rfl
@[simp] theorem State.countDraw_pc : s.countDraw.pc = s.pc := rfl
@[simp] theorem State.countDraw_mem : s.countDraw.mem = s.mem := rfl
@[simp] theorem State.countDraw_el : s.countDraw.el = s.el := rfl
@[simp] theorem State.countDraw_dit : s.countDraw.dit = s.dit := rfl
@[simp] theorem State.countDraw_simd : s.countDraw.simd = s.simd := rfl
@[simp] theorem State.countDraw_launch : s.countDraw.launch = s.launch := rfl
@[simp] theorem State.countDraw_condAnswers : s.countDraw.condAnswers = s.condAnswers := rfl
@[simp] theorem State.countDraw_draws : s.countDraw.draws = s.draws + 1 := rfl

@[simp] theorem State.setPc_gpr (a : Word) : (s.setPc a).gpr = s.gpr := rfl
@[simp] theorem State.setPc_dreg (a : Word) : (s.setPc a).dreg = s.dreg := rfl
@[simp] theorem State.setPc_pc (a : Word) : (s.setPc a).pc = a := rfl
@[simp] theorem State.setPc_mem (a : Word) : (s.setPc a).mem = s.mem := rfl
@[simp] theorem State.setPc_el (a : Word) : (s.setPc a).el = s.el := rfl
@[simp] theorem State.setPc_dit (a : Word) : (s.setPc a).dit = s.dit := rfl
@[simp] theorem State.setPc_simd (a : Word) : (s.setPc a).simd = s.simd := rfl
@[simp] theorem State.setPc_launch (a : Word) : (s.setPc a).launch = s.launch := rfl
@[simp] theorem State.setPc_condAnswers (a : Word) : (s.setPc a).condAnswers = s.condAnswers := rfl
@[simp] theorem State.setPc_draws (a : Word) : (s.setPc a).draws = s.draws := rfl

@[simp] theorem State.writeDreg_gpr (i : Nat) (v : Dword) : (s.writeDreg i v).gpr = s.gpr := by
  unfold State.writeDreg; split <;> rfl
@[simp] theorem State.writeDreg_pc (i : Nat) (v : Dword) : (s.writeDreg i v).pc = s.pc := by
  unfold State.writeDreg; split <;> rfl
@[simp] theorem State.writeDreg_mem (i : Nat) (v : Dword) : (s.writeDreg i v).mem = s.mem := by
  unfold State.writeDreg; split <;> rfl
@[simp] theorem State.writeDreg_el (i : Nat) (v : Dword) : (s.writeDreg i v).el = s.el := by
  unfold State.writeDreg; split <;> rfl
@[simp] theorem State.writeDreg_dit (i : Nat) (v : Dword) : (s.writeDreg i v).dit = s.dit := by
  unfold State.writeDreg; split <;> rfl
@[simp] theorem State.writeDreg_simd (i : Nat) (v : Dword) : (s.writeDreg i v).simd = s.simd := by
  unfold State.writeDreg; split <;> rfl
@[simp] theorem State.writeDreg_launch (i : Nat) (v : Dword) : (s.writeDreg i v).launch = s.launch := by
  unfold State.writeDreg; split <;> rfl
@[simp] theorem State.writeDreg_condAnswers (i : Nat) (v : Dword) : (s.writeDreg i v).condAnswers = s.condAnswers := by
  unfold State.writeDreg; split <;> rfl
@[simp] theorem State.writeDreg_draws (i : Nat) (v : Dword) : (s.writeDreg i v).draws = s.draws := by
  unfold State.writeDreg; split <;> rfl

@[simp] theorem State.consumeCondition_gpr (j : ISet) : (s.consumeCondition j).gpr = s.gpr := by cases j <;> rfl
@[simp] theorem State.consumeCondition_dreg (j : ISet) : (s.consumeCondition j).dreg = s.dreg := by cases j <;> rfl
@[simp] theorem State.consumeCondition_pc (j : ISet) : (s.consumeCondition j).pc = s.pc := by cases j <;> rfl
@[simp] theorem State.consumeCondition_mem (j : ISet) : (s.consumeCondition j).mem = s.mem := by cases j <;> rfl
@[simp] theorem State.consumeCondition_el (j : ISet) : (s.consumeCondition j).el = s.el := by cases j <;> rfl
@[simp] theorem State.consumeCondition_dit (j : ISet) : (s.consumeCondition j).dit = s.dit := by cases j <;> rfl
@[simp] theorem State.consumeCondition_simd (j : ISet) : (s.consumeCondition j).simd = s.simd := by cases j <;> rfl
@[simp] theorem State.consumeCondition_launch (j : ISet) : (s.consumeCondition j).launch = s.launch := by cases j <;> rfl
@[simp] theorem State.consumeCondition_draws (j : ISet) : (s.consumeCondition j).draws = s.draws := by cases j <;> rfl
@[simp] theorem State.consumeCondition_a32 : s.consumeCondition .a32 = s := rfl
@[simp] theorem State.consumeCondition_t32_condAnswers : (s.consumeCondition .t32).condAnswers = s.condAnswers.tail := rfl

@[simp] theorem State.retire_gpr (j : ISet) : (s.retire j).gpr = s.gpr := by simp [State.retire]
@[simp] theorem State.retire_dreg (j : ISet) : (s.retire j).dreg = s.dreg := by simp [State.retire]
@[simp] theorem State.retire_pc (j : ISet) : (s.retire j).pc = s.pc + 4#32 := rfl
@[simp] theorem State.retire_mem (j : ISet) : (s.retire j).mem = s.mem := by simp [State.retire]
@[simp] theorem State.retire_el (j : ISet) : (s.retire j).el = s.el := by simp [State.retire]
@[simp] theorem State.retire_dit (j : ISet) : (s.retire j).dit = s.dit := by simp [State.retire]
@[simp] theorem State.retire_simd (j : ISet) : (s.retire j).simd = s.simd := by simp [State.retire]
@[simp] theorem State.retire_launch (j : ISet) : (s.retire j).launch = s.launch := by simp [State.retire]
@[simp] theorem State.retire_a32_condAnswers : (s.retire .a32).condAnswers = s.condAnswers := rfl
@[simp] theorem State.retire_t32_condAnswers : (s.retire .t32).condAnswers = s.condAnswers.tail := rfl
@[simp] theorem State.retire_draws (j : ISet) : (s.retire j).draws = s.draws := by simp [State.retire]

/-! ## Registers -/

theorem State.readGpr_congr {s t : State} (h : s.gpr = t.gpr) (i : Fin 16) : s.readGpr i = t.readGpr i := by
  simp only [State.readGpr, h]

theorem State.readDreg_congr {s t : State} (h : s.dreg = t.dreg) (i : Nat) : s.readDreg i = t.readDreg i := by
  simp only [State.readDreg, h]

@[simp] theorem State.readGpr_withMem (m : Memory) (i : Fin 16) : (s.withMem m).readGpr i = s.readGpr i := rfl
@[simp] theorem State.readDreg_withMem (m : Memory) (i : Nat) : (s.withMem m).readDreg i = s.readDreg i := rfl
@[simp] theorem State.readGpr_retire (j : ISet) (i : Fin 16) : (s.retire j).readGpr i = s.readGpr i :=
  State.readGpr_congr (by simp) i
@[simp] theorem State.readDreg_retire (j : ISet) (i : Nat) : (s.retire j).readDreg i = s.readDreg i :=
  State.readDreg_congr (by simp) i

@[simp] theorem State.readGpr_writeGpr_same (i : Fin 16) (v : Word) : (s.writeGpr i v).readGpr i = v := by
  simp [State.readGpr, State.writeGpr]

theorem State.readGpr_writeGpr_other {i j : Fin 16} (h : i ≠ j) (v : Word) : (s.writeGpr i v).readGpr j = s.readGpr j := by
  have hij : (i : Nat) ≠ j := fun e => h (Fin.ext e)
  simp [State.readGpr, State.writeGpr, hij]

theorem State.readDreg_writeDreg_same {i : Nat} (h : i < 32) (v : Dword) : (s.writeDreg i v).readDreg i = v := by
  simp [State.readDreg, State.writeDreg, h]

theorem State.readDreg_writeDreg_other {i j : Nat} (h : i ≠ j) (v : Dword) : (s.writeDreg i v).readDreg j = s.readDreg j := by
  unfold State.writeDreg State.readDreg
  by_cases hi : i < 32 <;> by_cases hj : j < 32 <;> simp [hi, hj, h]

/-- Two register files that read alike at every number are equal. -/
theorem State.gpr_ext {s t : State} (h : ∀ i, s.readGpr i = t.readGpr i) : s.gpr = t.gpr := by
  apply Vector.ext
  intro i hi
  simpa [State.readGpr] using h ⟨i, hi⟩

end Sys2Proof.Machine
end

