-- ==== Sys2Proof/Laws/Memory.lean ====
section
/-! SUPPORT. The laws of byte memories: reading after writing, and that every operation keeps the canonical form. -/

namespace Sys2Proof.Machine

theorem Memory.read_write_same (m : Memory) (a : Nat) (v : Byte) : Memory.read (Memory.write m a v) a = some v := by
  induction m with
  | nil => simp [Memory.write, Memory.read]
  | cons c rest ih =>
    obtain ⟨x, b⟩ := c
    unfold Memory.write
    split
    · simp [Memory.read]
    · split
      · simp [Memory.read]
      · rename_i h
        simp only [Memory.read, if_neg (Ne.symm h), ih]

theorem Memory.read_write_other (m : Memory) {a a' : Nat} (h : a ≠ a') (v : Byte) :
    Memory.read (Memory.write m a v) a' = Memory.read m a' := by
  induction m with
  | nil => simp [Memory.write, Memory.read, h]
  | cons c rest ih =>
    obtain ⟨x, b⟩ := c
    unfold Memory.write
    split
    · simp [Memory.read, h]
    · split
      · rename_i hx
        subst hx
        simp [Memory.read, h]
      · simp only [Memory.read, ih]

theorem Memory.read_write (m : Memory) (a a' : Nat) (v : Byte) :
    Memory.read (Memory.write m a v) a' = if a = a' then some v else Memory.read m a' := by
  split
  · rename_i h; rw [← h, Memory.read_write_same]
  · rename_i h; exact Memory.read_write_other m h v

theorem Memory.wfFrom_mono {lo lo' : Nat} (h : lo' ≤ lo) {m : Memory} (hm : Memory.wfFrom lo m = true) :
    Memory.wfFrom lo' m = true := by
  cases m with
  | nil => rfl
  | cons c rest =>
    simp only [Memory.wfFrom, Bool.and_eq_true, decide_eq_true_eq] at hm ⊢
    exact ⟨⟨by omega, hm.1.2⟩, hm.2⟩

theorem Memory.wfFrom_write {lo a : Nat} (hlo : lo ≤ a) (ha : a < 2 ^ 32) (v : Byte) {m : Memory}
    (hm : Memory.wfFrom lo m = true) : Memory.wfFrom lo (Memory.write m a v) = true := by
  induction m generalizing lo with
  | nil => simp only [Memory.write, Memory.wfFrom, hlo, ha, decide_true, Bool.and_self]
  | cons c rest ih =>
    obtain ⟨x, b⟩ := c
    simp only [Memory.wfFrom, Bool.and_eq_true, decide_eq_true_eq] at hm
    unfold Memory.write
    split
    · simp only [Memory.wfFrom, Bool.and_eq_true, decide_eq_true_eq]
      exact ⟨⟨hlo, ha⟩, ⟨⟨by omega, hm.1.2⟩, hm.2⟩⟩
    · split
      · rename_i hx
        subst hx
        simp only [Memory.wfFrom, Bool.and_eq_true, decide_eq_true_eq]
        exact ⟨⟨hlo, ha⟩, hm.2⟩
      · simp only [Memory.wfFrom, Bool.and_eq_true, decide_eq_true_eq]
        exact ⟨hm.1, ih (by omega) hm.2⟩

/-- A write keeps the canonical form. -/
theorem Memory.wf_write {m : Memory} (hm : Memory.wf m = true) {a : Nat} (ha : a < 2 ^ 32) (v : Byte) :
    Memory.wf (Memory.write m a v) = true :=
  Memory.wfFrom_write (Nat.zero_le a) ha v hm

/-- A write of several bytes keeps the canonical form. -/
theorem Memory.wf_writeBytes (bs : List Byte) {m : Memory} (hm : Memory.wf m = true) (addr : Word) :
    Memory.wf (Memory.writeBytes m addr bs) = true := by
  induction bs generalizing m addr with
  | nil => exact hm
  | cons b bs ih => exact ih (Memory.wf_write hm addr.isLt b) _

/-- Below the first address a canonical memory may list, it lists nothing. -/
theorem Memory.read_lt {lo a : Nat} {m : Memory} (hm : Memory.wfFrom lo m = true) (h : a < lo) : Memory.read m a = none := by
  induction m generalizing lo with
  | nil => rfl
  | cons c rest ih =>
    obtain ⟨x, b⟩ := c
    simp only [Memory.wfFrom, Bool.and_eq_true, decide_eq_true_eq] at hm
    rw [Memory.read, if_neg (by omega)]
    exact ih hm.2 (by omega)

theorem Memory.ext_of_wfFrom {lo : Nat} {m m' : Memory} (hm : Memory.wfFrom lo m = true) (hm' : Memory.wfFrom lo m' = true)
    (h : ∀ a, Memory.read m a = Memory.read m' a) : m = m' := by
  induction m generalizing lo m' with
  | nil =>
    cases m' with
    | nil => rfl
    | cons c rest => have := h c.1; simp [Memory.read, Memory.unlisted] at this
  | cons c rest ih =>
    obtain ⟨x, b⟩ := c
    cases m' with
    | nil => have := h x; simp [Memory.read, Memory.unlisted] at this
    | cons c' rest' =>
      obtain ⟨y, b'⟩ := c'
      simp only [Memory.wfFrom, Bool.and_eq_true, decide_eq_true_eq] at hm hm'
      have hxy : x = y := by
        rcases Nat.lt_trichotomy x y with hlt | heq | hgt
        · have := h x
          rw [Memory.read, if_pos rfl, Memory.read, if_neg (by omega), Memory.read_lt hm'.2 (by omega)] at this
          exact absurd this (by simp)
        · exact heq
        · have := h y
          rw [Memory.read, if_neg (by omega), Memory.read_lt hm.2 (by omega), Memory.read, if_pos rfl] at this
          exact absurd this (by simp)
      subst hxy
      have hb : b = b' := by simpa [Memory.read] using h x
      subst hb
      refine congrArg _ (ih hm.2 hm'.2 fun a => ?_)
      by_cases ha : x = a
      · rw [Memory.read_lt hm.2 (by omega), Memory.read_lt hm'.2 (by omega)]
      · simpa [Memory.read, ha] using h a

/-- Canonical memories that read alike are equal. -/
theorem Memory.ext_of_wf {m m' : Memory} (hm : Memory.wf m = true) (hm' : Memory.wf m' = true)
    (h : ∀ a, Memory.read m a = Memory.read m' a) : m = m' :=
  Memory.ext_of_wfFrom hm hm' h

theorem addressRange_length (addr : Word) (n : Nat) : (addressRange addr n).length = n := by
  induction n generalizing addr with
  | zero => rfl
  | succ n ih => simp [addressRange, ih]

theorem mem_addressRange {addr a : Word} {n : Nat} :
    a ∈ addressRange addr n ↔ ∃ b, b < n ∧ a = addr + BitVec.ofNat 32 b := by
  induction n generalizing addr with
  | zero => simp [addressRange]
  | succ n ih =>
    simp only [addressRange, List.mem_cons, ih]
    constructor
    · rintro (rfl | ⟨b, hb, rfl⟩)
      · exact ⟨0, by omega, by simp⟩
      · refine ⟨b + 1, by omega, ?_⟩
        rw [show BitVec.ofNat 32 (b + 1) = 1#32 + BitVec.ofNat 32 b by rw [Nat.add_comm, BitVec.ofNat_add], BitVec.add_assoc]
    · rintro ⟨b, hb, rfl⟩
      cases b with
      | zero => left; simp
      | succ b =>
        right
        refine ⟨b, by omega, ?_⟩
        rw [show BitVec.ofNat 32 (b + 1) = 1#32 + BitVec.ofNat 32 b by rw [Nat.add_comm, BitVec.ofNat_add], BitVec.add_assoc]

/-- Bytes outside the range written read as before. -/
theorem Memory.read_writeBytes_other (bs : List Byte) (m : Memory) (addr : Word) {a : Nat}
    (h : ∀ w ∈ addressRange addr bs.length, w.toNat ≠ a) :
    Memory.read (Memory.writeBytes m addr bs) a = Memory.read m a := by
  induction bs generalizing m addr with
  | nil => rfl
  | cons b bs ih =>
    rw [Memory.writeBytes, ih _ _ fun w hw => h w (List.mem_cons_of_mem _ hw)]
    exact Memory.read_write_other m (h addr List.mem_cons_self) b

/-- Bytes written, where the range does not wrap: the byte at `addr + j` is the `j`-th. -/
theorem Memory.read_writeBytes_at (bs : List Byte) (m : Memory) (addr : Word) (hw : addr.toNat + bs.length ≤ 2 ^ 32) {j : Nat}
    (hj : j < bs.length) : Memory.read (Memory.writeBytes m addr bs) (addr.toNat + j) = bs[j]? := by
  induction bs generalizing m addr j with
  | nil => simp at hj
  | cons b bs ih =>
    simp only [List.length_cons] at hw hj
    rw [Memory.writeBytes]
    by_cases hlast : bs.length = 0
    · have : bs = [] := List.length_eq_zero_iff.mp hlast
      subst this
      have : j = 0 := by simpa using hj
      subst this
      simp [Memory.writeBytes, Memory.read_write_same]
    · have h1 : (addr + 1#32).toNat = addr.toNat + 1 := by
        rw [BitVec.toNat_add]; simp; omega
      cases j with
      | zero =>
        rw [Memory.read_writeBytes_other]
        · simp [Memory.read_write_same]
        · intro w hwm
          obtain ⟨c, hc, rfl⟩ := mem_addressRange.mp hwm
          rw [BitVec.toNat_add, h1]
          simp only [BitVec.toNat_ofNat]
          omega
      | succ j =>
        have := ih (Memory.write m addr.toNat b) (addr + 1#32) (by rw [h1]; omega) (j := j) (by omega)
        rw [h1, show addr.toNat + 1 + j = addr.toNat + (j + 1) by omega] at this
        simpa using this

end Sys2Proof.Machine
end

