-- ==== Sys2Proof/Laws/Ops.lean ====
section
/-! SUPPORT. What each shared operation can do: the free draws, the raise, the condition gate, the Decode block, the stores. -/

namespace Sys2Proof.Machine

/-! ## Free draws -/

/-- What no draw of memory bytes changes. -/
structure SameButBytes (s t : State) : Prop where
  gpr         : t.gpr = s.gpr
  dreg        : t.dreg = s.dreg
  pc          : t.pc = s.pc
  el          : t.el = s.el
  dit         : t.dit = s.dit
  simd        : t.simd = s.simd
  launch      : t.launch = s.launch
  condAnswers : t.condAnswers = s.condAnswers

theorem State.unknownByte_same (s : State) (a : Word) : SameButBytes s (s.unknownByte a) := by
  unfold State.unknownByte
  dsimp only
  split <;> exact ⟨rfl, rfl, rfl, rfl, rfl, rfl, rfl, rfl⟩

theorem State.unknownBytes_same (s : State) (l : List Word) : SameButBytes s (s.unknownBytes l) := by
  induction l generalizing s with
  | nil => exact ⟨rfl, rfl, rfl, rfl, rfl, rfl, rfl, rfl⟩
  | cons a rest ih =>
    have h1 := State.unknownByte_same s a
    have h2 := ih (s.unknownByte a)
    exact ⟨h2.gpr.trans h1.gpr, h2.dreg.trans h1.dreg, h2.pc.trans h1.pc, h2.el.trans h1.el, h2.dit.trans h1.dit,
      h2.simd.trans h1.simd, h2.launch.trans h1.launch, h2.condAnswers.trans h1.condAnswers⟩

theorem State.inLaunchMemory_congr {s t : State} (h : t.launch = s.launch) (a : Word) :
    t.inLaunchMemory a = s.inLaunchMemory a := by
  simp only [State.inLaunchMemory, h]

theorem State.unknownByte_read_other (s : State) {a : Word} {x : Nat} (h : a.toNat ≠ x) :
    Memory.read (s.unknownByte a).mem x = Memory.read s.mem x := by
  unfold State.unknownByte
  dsimp only
  split
  · exact Memory.read_write_other s.mem h _
  · rfl

theorem State.unknownBytes_read_other (s : State) {l : List Word} {x : Nat} (h : ∀ w ∈ l, w.toNat ≠ x) :
    Memory.read (s.unknownBytes l).mem x = Memory.read s.mem x := by
  induction l generalizing s with
  | nil => rfl
  | cons a rest ih =>
    rw [State.unknownBytes, ih _ fun w hw => h w (List.mem_cons_of_mem _ hw)]
    exact State.unknownByte_read_other s (h a List.mem_cons_self)

theorem State.unknownBytes_wf (s : State) (l : List Word) (h : Memory.wf s.mem = true) :
    Memory.wf (s.unknownBytes l).mem = true := by
  induction l generalizing s with
  | nil => exact h
  | cons a rest ih =>
    refine ih _ ?_
    unfold State.unknownByte
    dsimp only
    split
    · exact Memory.wf_write h a.isLt _
    · exact h

/-- What no draw of D registers changes. -/
structure SameButDregs (s t : State) : Prop where
  gpr         : t.gpr = s.gpr
  mem         : t.mem = s.mem
  pc          : t.pc = s.pc
  el          : t.el = s.el
  dit         : t.dit = s.dit
  simd        : t.simd = s.simd
  launch      : t.launch = s.launch
  condAnswers : t.condAnswers = s.condAnswers

theorem State.unknownDregs_same (s : State) (l : List Nat) : SameButDregs s (s.unknownDregs l) := by
  induction l generalizing s with
  | nil => exact ⟨rfl, rfl, rfl, rfl, rfl, rfl, rfl, rfl⟩
  | cons i rest ih =>
    have h := ih { s.writeDreg i (Config.freeDword s.draws) with draws := s.draws + 1 }
    exact ⟨h.gpr.trans (by simp), h.mem.trans (by simp), h.pc.trans (by simp), h.el.trans (by simp), h.dit.trans (by simp),
      h.simd.trans (by simp), h.launch.trans (by simp), h.condAnswers.trans (by simp)⟩

theorem State.unknownDregs_read_other (s : State) {l : List Nat} {i : Nat} (h : i ∉ l) :
    (s.unknownDregs l).readDreg i = s.readDreg i := by
  induction l generalizing s with
  | nil => rfl
  | cons j rest ih =>
    rw [State.unknownDregs, ih _ fun hm => h (List.mem_cons_of_mem _ hm)]
    exact State.readDreg_writeDreg_other s (by rintro rfl; exact h List.mem_cons_self) _

/-! ## The condition gate -/

@[simp] theorem State.conditionPassed_a32 (s : State) : s.conditionPassed .a32 = true := rfl

/-! ## Decode blocks -/

/-- A Decode block that comes to operands has a list of existing registers and a base other than 15. -/
theorem decodeBlock_ok {sz : ElemSize} {dd : BitVec 5} {rn ia rm : BitVec 4} {ops : Ops}
    (h : decodeBlock sz dd rn ia rm = .ok ops) :
    ops = opsOf sz dd rn ia rm ∧ ops.d4 ≤ 31 ∧ rn ≠ 15#4 ∧ reservedAlign sz ia = false := by
  unfold decodeBlock at h
  dsimp only at h
  split at h
  · cases h
  · split at h
    · cases h
    · split at h
      · cases h
      · cases h
        rename_i h1 h2 h3
        exact ⟨rfl, by omega, h2, by simpa using h1⟩

/-- A Decode block that finds `d4 > 31`. -/
theorem decodeBlock_cuD4 {sz : ElemSize} {dd : BitVec 5} {rn ia rm : BitVec 4} {ops : Ops}
    (h : decodeBlock sz dd rn ia rm = .cuD4 ops) :
    ops = opsOf sz dd rn ia rm ∧ 31 < ops.d4 ∧ rn ≠ 15#4 ∧ reservedAlign sz ia = false := by
  unfold decodeBlock at h
  dsimp only at h
  split at h
  · cases h
  · split at h
    · cases h
    · split at h
      · cases h
        rename_i h1 h2 h3
        exact ⟨rfl, h3, h2, by simpa using h1⟩
      · cases h

theorem ebytesOf_pos (sz : ElemSize) : 0 < ebytesOf sz := by cases sz <;> decide

theorem incOf_le (sz : ElemSize) (ia : BitVec 4) : incOf sz ia = 1 ∨ incOf sz ia = 2 := by
  cases sz <;> simp only [incOf]
  · simp
  · split <;> simp
  · split <;> simp

/-! ## Element bytes -/

@[simp] theorem bytesLE_length {n : Nat} (v : BitVec (8 * n)) : (bytesLE v).length = n := by simp [bytesLE]

@[simp] theorem Ops.element_length (ops : Ops) (s : State) (a : Word) (k : Nat) :
    (ops.element s a k).bytes.length = ops.ebytes := by simp [Ops.element]

/-- Byte `j` of lane `index` is byte `ebytes*index + j` of the register (rule R159, "stated bytewise"). -/
theorem bytesLE_lane_getElem? (x : Dword) (index ebytes : Nat) {j : Nat} (hj : j < ebytes) :
    (bytesLE (lane x index ebytes))[j]? = some (x.extractLsb' (8 * (ebytes * index + j)) 8) := by
  simp only [bytesLE, List.getElem?_map, List.getElem?_range hj, Option.map_some, Option.some.injEq, lane]
  ext b hb
  simp only [BitVec.getElem_extractLsb', BitVec.getLsbD_extractLsb']
  have h1 : 8 * j + b < 8 * ebytes := by omega
  simp only [h1, decide_true, Bool.true_and]
  congr 1
  rw [Nat.mul_add, Nat.mul_assoc]
  omega

/-! ## The raise -/

theorem raise_not_next (e : Exception) (s t : State) : raise e s ≠ .next t := by
  cases e <;> simp [raise]

theorem raise_not_refused (e : Exception) (s : State) (r : Refusal) : raise e s ≠ .refused r := by
  cases e <;> simp [raise]

end Sys2Proof.Machine
end

