-- ==== Sys2Proof/Laws/Execute.lean ====
section
/-! SUPPORT. What the shared Operation can do, said once: the element stores, and the cases of `execute` that answer a next state. -/

namespace Sys2Proof.Machine

/-! ## The element stores -/

/-- Writing elements one after the other. -/
def writeElements (m : Memory) : List Element → Memory
  | [] => m
  | e :: rest => writeElements (Memory.writeBytes m e.addr e.bytes) rest

/-- An element store that `MemAdmit` admits in the state with memory `m` and whose bytes are all in `LaunchMemory`. -/
structure Admitted (s : State) (m : Memory) (e : Element) : Prop where
  admits : (s.withMem m).memAdmit s.accDesc e.addr e.bytes.length = none
  launch : ∀ a ∈ addressRange e.addr e.bytes.length, s.inLaunchMemory a = true

/-- Element stores from memory `m` of which each is admitted once those before it are stored. -/
def AllAdmitted (s : State) (m : Memory) : List Element → Prop
  | [] => True
  | e :: rest => Admitted s m e ∧ AllAdmitted s (Memory.writeBytes m e.addr e.bytes) rest

/-- The byte addresses of elements. -/
def touchedBy (es : List Element) : List Word := es.flatMap fun e => addressRange e.addr e.bytes.length

/-- All addresses of admitted elements are in `LaunchMemory`. -/
theorem AllAdmitted.inLaunch {s : State} {m : Memory} {es : List Element} (h : AllAdmitted s m es) :
    ∀ a ∈ touchedBy es, s.inLaunchMemory a = true := by
  induction es generalizing m with
  | nil => simp [touchedBy]
  | cons e rest ih =>
    intro a ha
    simp only [touchedBy, List.flatMap_cons, List.mem_append] at ha
    exact ha.elim (h.1.launch a) (ih h.2 a)

theorem storeElements_of_admitted {s : State} {es : List Element} {m : Memory} (h : AllAdmitted s m es) (touched : List Word) :
    storeElements s touched m es = .done (writeElements m es) := by
  induction es generalizing touched m with
  | nil => rfl
  | cons e rest ih =>
    have hf : (addressRange e.addr e.bytes.length).find? (fun a => !s.inLaunchMemory a) = none := by
      rw [List.find?_eq_none]
      intro a ha
      simp [h.1.launch a ha]
    simp only [storeElements, h.1.admits, hf, writeElements]
    exact ih h.2 _

/-- The three ends of a sequence of element stores: every element stored; or a first element that is not admitted, all before it
being admitted and stored. -/
theorem storeElements_cases (s : State) (es : List Element) (touched : List Word) (m : Memory) :
    (storeElements s touched m es = .done (writeElements m es) ∧ AllAdmitted s m es) ∨
    (∃ pre e post info, es = pre ++ e :: post ∧ AllAdmitted s m pre ∧
      (s.withMem (writeElements m pre)).memAdmit s.accDesc e.addr e.bytes.length = some info ∧
      storeElements s touched m es = .abort info (touched ++ touchedBy (pre ++ [e]))) ∨
    (∃ pre e post a, es = pre ++ e :: post ∧ AllAdmitted s m pre ∧
      (s.withMem (writeElements m pre)).memAdmit s.accDesc e.addr e.bytes.length = none ∧
      a ∈ addressRange e.addr e.bytes.length ∧ s.inLaunchMemory a = false ∧ storeElements s touched m es = .stuck a) := by
  induction es generalizing touched m with
  | nil => exact .inl ⟨rfl, trivial⟩
  | cons e rest ih =>
    cases hadm : (s.withMem m).memAdmit s.accDesc e.addr e.bytes.length with
    | some info =>
      refine .inr (.inl ⟨[], e, rest, info, rfl, trivial, hadm, ?_⟩)
      simp [storeElements, hadm, touchedBy]
    | none =>
      cases hf : (addressRange e.addr e.bytes.length).find? (fun a => !s.inLaunchMemory a) with
      | some a =>
        refine .inr (.inr ⟨[], e, rest, a, rfl, trivial, hadm, List.mem_of_find?_eq_some hf, ?_, ?_⟩)
        · simpa using List.find?_some hf
        · simp [storeElements, hadm, hf]
      | none =>
        have he : Admitted s m e := ⟨hadm, fun a ha => by simpa using (List.find?_eq_none.mp hf) a ha⟩
        have hstep : storeElements s touched m (e :: rest) =
            storeElements s (touched ++ addressRange e.addr e.bytes.length) (Memory.writeBytes m e.addr e.bytes) rest := by
          simp [storeElements, hadm, hf]
        rw [hstep]
        rcases ih (touched ++ addressRange e.addr e.bytes.length) (Memory.writeBytes m e.addr e.bytes) with
          ⟨h, hall⟩ | ⟨pre, e', post, info, hes, hpre, ha, h⟩ | ⟨pre, e', post, a, hes, hpre, ha, hmem, hl, h⟩
        · exact .inl ⟨h, he, hall⟩
        · exact .inr (.inl ⟨e :: pre, e', post, info, by rw [hes]; rfl, ⟨he, hpre⟩, ha, by rw [h]; simp [touchedBy]⟩)
        · exact .inr (.inr ⟨e :: pre, e', post, a, by rw [hes]; rfl, ⟨he, hpre⟩, ha, hmem, hl, h⟩)

/-- If every element is stored, each was admitted, and the memory is the elements written in order. -/
theorem storeElements_done {s : State} {es : List Element} {touched : List Word} {m m' : Memory}
    (h : storeElements s touched m es = .done m') : m' = writeElements m es ∧ AllAdmitted s m es := by
  rcases storeElements_cases s es touched m with ⟨h', hall⟩ | ⟨_, _, _, _, _, _, _, h'⟩ | ⟨_, _, _, _, _, _, _, _, _, h'⟩
  · rw [h'] at h; cases h; exact ⟨rfl, hall⟩
  · rw [h'] at h; cases h
  · rw [h'] at h; cases h

theorem writeElements_wf (es : List Element) {m : Memory} (h : Memory.wf m = true) : Memory.wf (writeElements m es) = true := by
  induction es generalizing m with
  | nil => exact h
  | cons e rest ih => exact ih (Memory.wf_writeBytes e.bytes h e.addr)

theorem writeElements_read_other {es : List Element} (m : Memory) {x : Nat} (h : ∀ w ∈ touchedBy es, w.toNat ≠ x) :
    Memory.read (writeElements m es) x = Memory.read m x := by
  induction es generalizing m with
  | nil => rfl
  | cons e rest ih =>
    rw [writeElements, ih _ fun w hw => h w (by simp [touchedBy] at hw ⊢; exact .inr hw)]
    exact Memory.read_writeBytes_other _ _ _ fun w hw => h w (by simp [touchedBy, hw])

/-! ## The Operation -/

/-- The Decode block of an instruction's class (rules R150 step 2, R152); the `size == '11'` patterns are UNDEFINED (rule R89). -/
def decodeResult : Instr → DecodeResult
  | .a1Nowb dd rn ia => decodeBlock .b8 dd rn ia 15#4
  | .a1Posti dd rn ia => decodeBlock .b8 dd rn ia 13#4
  | .a1Postr dd rn ia rm => decodeBlock .b8 dd rn ia rm
  | .a2Nowb dd rn ia => decodeBlock .b16 dd rn ia 15#4
  | .a2Posti dd rn ia => decodeBlock .b16 dd rn ia 13#4
  | .a2Postr dd rn ia rm => decodeBlock .b16 dd rn ia rm
  | .a3Nowb dd rn ia => decodeBlock .b32 dd rn ia 15#4
  | .a3Posti dd rn ia => decodeBlock .b32 dd rn ia 13#4
  | .a3Postr dd rn ia rm => decodeBlock .b32 dd rn ia rm
  | .a32Size11 _ _ _ _ => .undef
  | .t1Nowb dd rn ia => decodeBlock .b8 dd rn ia 15#4
  | .t1Posti dd rn ia => decodeBlock .b8 dd rn ia 13#4
  | .t1Postr dd rn ia rm => decodeBlock .b8 dd rn ia rm
  | .t2Nowb dd rn ia => decodeBlock .b16 dd rn ia 15#4
  | .t2Posti dd rn ia => decodeBlock .b16 dd rn ia 13#4
  | .t2Postr dd rn ia rm => decodeBlock .b16 dd rn ia rm
  | .t3Nowb dd rn ia => decodeBlock .b32 dd rn ia 15#4
  | .t3Posti dd rn ia => decodeBlock .b32 dd rn ia 13#4
  | .t3Postr dd rn ia rm => decodeBlock .b32 dd rn ia rm
  | .t32Size11 _ _ _ _ => .undef

/-- Every meaning is the shared Operation at its own Decode block. -/
theorem exec_eq_execute (i : Instr) (s : State) : exec i s = execute i.iset (encode i) (decodeResult i) s := by
  cases i <;> rfl

/-- The enable check answers a next state only where the unit is enabled. -/
theorem whenEnabled_next {word : Word} {s t : State} {k : State → Out} (h : whenEnabled word s k = .next t) :
    s.advSimdCheck = .enabled ∧ k s = .next t := by
  unfold whenEnabled at h
  split at h
  · exact absurd h (raise_not_next _ _ _)
  · exact absurd h (raise_not_next _ _ _)
  · exact ⟨by assumption, h⟩

/-- A next state of the store path: every check passed and every element was stored. -/
structure Completed (iset : ISet) (ops : Ops) (s t : State) : Prop where
  aligned      : ops.misaligned s (s.readGpr ops.n) = false
  littleEndian : s.launch.bigEndianData = false
  noWrap       : (s.readGpr ops.n).toNat + 4 * ops.ebytes ≤ 2 ^ 32
  outsideText  : s.meetsText (s.readGpr ops.n) (4 * ops.ebytes) = false
  admitted     : AllAdmitted s s.mem (ops.elements s (s.readGpr ops.n))
  result       : t = (ops.writeback (s.withMem (writeElements s.mem (ops.elements s (s.readGpr ops.n))))).retire iset

theorem storeChecked_next {iset : ISet} {ops : Ops} {s t : State} (h : storeChecked iset ops s = .next t) :
    Completed iset ops s t := by
  unfold storeChecked at h
  dsimp only at h
  split at h
  · exact absurd h (raise_not_next _ _ _)
  split at h
  · cases h
  split at h
  · cases h
  split at h
  · cases h
  rename_i h1 h2 h3 h4
  unfold storeStructure at h
  split at h
  · rename_i mem hst
    obtain ⟨rfl, hadm⟩ := storeElements_done hst
    cases h
    exact ⟨by simpa using h1, by simpa using h2, by omega, by simpa using h4, hadm, rfl⟩
  · exact absurd h (raise_not_next _ _ _)
  · cases h

/-- The converse: where every check passes the store path answers that next state. -/
theorem storeChecked_of_completed {iset : ISet} {ops : Ops} {s t : State} (h : Completed iset ops s t) :
    storeChecked iset ops s = .next t := by
  have hw : ¬ 2 ^ 32 < (s.readGpr ops.n).toNat + 4 * ops.ebytes := by have := h.noWrap; omega
  unfold storeChecked
  simp only [h.aligned, h.littleEndian, if_neg hw, h.outsideText, storeStructure,
    storeElements_of_admitted h.admitted, h.result, Bool.false_eq_true, if_false]

/-- The cases in which the Operation answers a next state: the condition fails on operands that decode; the structure is stored;
`d4 > 31` is a NOP; `d4 > 31` makes values UNKNOWN. -/
theorem execute_next {iset : ISet} {word : Word} {r : DecodeResult} {s t : State} (h : execute iset word r s = .next t) :
    (s.conditionPassed iset = false ∧ (∃ ops, r = .ok ops) ∧ t = s.retire iset) ∨
    (s.conditionPassed iset = true ∧ ∃ ops, r = .ok ops ∧ s.advSimdCheck = .enabled ∧ Completed iset ops s t) ∨
    (s.conditionPassed iset = true ∧ (∃ ops, r = .cuD4 ops) ∧ s.launch.cuD4 = .nop ∧ t = s.retire iset) ∨
    (s.conditionPassed iset = true ∧ ∃ ops, r = .cuD4 ops ∧ s.launch.cuD4 = .unknown ∧ s.advSimdCheck = .enabled ∧
      t = (ops.unknownBase (ops.unknownStorage s).countDraw).retire iset) := by
  unfold execute at h
  split at h
  · rename_i hc
    split at h
    · exact absurd h (raise_not_next _ _ _)
    · cases h
    · rename_i ops
      unfold registerListPastEnd at h
      split at h
      · cases h
      · exact absurd h (raise_not_next _ _ _)
      · cases h
        exact .inr (.inr (.inl ⟨hc, ⟨ops, rfl⟩, by assumption, rfl⟩))
      · obtain ⟨hen, hk⟩ := whenEnabled_next h
        unfold unknownList at hk
        dsimp only at hk
        split at hk
        · cases hk
          exact .inr (.inr (.inr ⟨hc, ops, rfl, by assumption, hen, rfl⟩))
        · exact absurd hk (raise_not_next _ _ _)
        · exact absurd hk (raise_not_next _ _ _)
    · rename_i ops
      obtain ⟨hen, hk⟩ := whenEnabled_next h
      exact .inr (.inl ⟨hc, ops, rfl, hen, storeChecked_next hk⟩)
  · rename_i hc
    split at h
    · rename_i ops
      cases h
      exact .inl ⟨by simpa using hc, ⟨ops, rfl⟩, rfl⟩
    · cases h
    · cases h
    · cases h

/-! ## What the pieces of the Operation leave alone -/

@[simp] theorem Ops.writeback_dreg (ops : Ops) (s : State) : (ops.writeback s).dreg = s.dreg := by
  unfold Ops.writeback; split <;> simp
@[simp] theorem Ops.writeback_pc (ops : Ops) (s : State) : (ops.writeback s).pc = s.pc := by
  unfold Ops.writeback; split <;> simp
@[simp] theorem Ops.writeback_mem (ops : Ops) (s : State) : (ops.writeback s).mem = s.mem := by
  unfold Ops.writeback; split <;> simp
@[simp] theorem Ops.writeback_el (ops : Ops) (s : State) : (ops.writeback s).el = s.el := by
  unfold Ops.writeback; split <;> simp
@[simp] theorem Ops.writeback_dit (ops : Ops) (s : State) : (ops.writeback s).dit = s.dit := by
  unfold Ops.writeback; split <;> simp
@[simp] theorem Ops.writeback_simd (ops : Ops) (s : State) : (ops.writeback s).simd = s.simd := by
  unfold Ops.writeback; split <;> simp
@[simp] theorem Ops.writeback_launch (ops : Ops) (s : State) : (ops.writeback s).launch = s.launch := by
  unfold Ops.writeback; split <;> simp
@[simp] theorem Ops.writeback_condAnswers (ops : Ops) (s : State) : (ops.writeback s).condAnswers = s.condAnswers := by
  unfold Ops.writeback; split <;> simp
@[simp] theorem Ops.writeback_draws (ops : Ops) (s : State) : (ops.writeback s).draws = s.draws := by
  unfold Ops.writeback; split <;> simp

theorem Ops.writeback_readGpr_other {ops : Ops} {i : Fin 16} (h : ops.n ≠ i) (s : State) :
    (ops.writeback s).readGpr i = s.readGpr i := by
  unfold Ops.writeback
  split
  · exact State.readGpr_writeGpr_other s h _
  · rfl

theorem Ops.writeback_readGpr_base {ops : Ops} (h : ops.wback = true) (s : State) :
    (ops.writeback s).readGpr ops.n = ops.writebackValue s := by
  simp [Ops.writeback, h]

/-- What the free bytes and registers of the `Unknown` row leave alone, memory and the D registers apart. -/
structure SameButStorage (s t : State) : Prop where
  gpr         : t.gpr = s.gpr
  pc          : t.pc = s.pc
  el          : t.el = s.el
  dit         : t.dit = s.dit
  simd        : t.simd = s.simd
  launch      : t.launch = s.launch
  condAnswers : t.condAnswers = s.condAnswers

theorem Ops.unknownStorage_same (ops : Ops) (s : State) : SameButStorage s (ops.unknownStorage s) := by
  have h1 := State.unknownBytes_same s (addressRange (s.readGpr ops.n) (4 * ops.ebytes))
  have h2 := State.unknownDregs_same (s.unknownBytes (addressRange (s.readGpr ops.n) (4 * ops.ebytes))) ops.regs
  exact ⟨h2.gpr.trans h1.gpr, h2.pc.trans h1.pc, h2.el.trans h1.el, h2.dit.trans h1.dit, h2.simd.trans h1.simd,
    h2.launch.trans h1.launch, h2.condAnswers.trans h1.condAnswers⟩

theorem Ops.unknownStorage_read_other (ops : Ops) (s : State) {x : Nat}
    (h : ∀ w ∈ addressRange (s.readGpr ops.n) (4 * ops.ebytes), w.toNat ≠ x) :
    Memory.read (ops.unknownStorage s).mem x = Memory.read s.mem x := by
  rw [Ops.unknownStorage, (State.unknownDregs_same _ _).mem]
  exact State.unknownBytes_read_other s h

theorem Ops.unknownStorage_readDreg_other (ops : Ops) (s : State) {i : Nat} (h : i ∉ ops.regs) :
    (ops.unknownStorage s).readDreg i = s.readDreg i := by
  rw [Ops.unknownStorage, State.unknownDregs_read_other _ h]
  exact State.readDreg_congr (State.unknownBytes_same _ _).dreg i

theorem Ops.unknownStorage_wf (ops : Ops) {s : State} (h : Memory.wf s.mem = true) :
    Memory.wf (ops.unknownStorage s).mem = true := by
  rw [Ops.unknownStorage, (State.unknownDregs_same _ _).mem]
  exact State.unknownBytes_wf s _ h

@[simp] theorem Ops.unknownBase_dreg (ops : Ops) (s : State) : (ops.unknownBase s).dreg = s.dreg := by
  unfold Ops.unknownBase; split <;> rfl
@[simp] theorem Ops.unknownBase_pc (ops : Ops) (s : State) : (ops.unknownBase s).pc = s.pc := by
  unfold Ops.unknownBase; split <;> rfl
@[simp] theorem Ops.unknownBase_mem (ops : Ops) (s : State) : (ops.unknownBase s).mem = s.mem := by
  unfold Ops.unknownBase; split <;> rfl
@[simp] theorem Ops.unknownBase_el (ops : Ops) (s : State) : (ops.unknownBase s).el = s.el := by
  unfold Ops.unknownBase; split <;> rfl
@[simp] theorem Ops.unknownBase_dit (ops : Ops) (s : State) : (ops.unknownBase s).dit = s.dit := by
  unfold Ops.unknownBase; split <;> rfl
@[simp] theorem Ops.unknownBase_simd (ops : Ops) (s : State) : (ops.unknownBase s).simd = s.simd := by
  unfold Ops.unknownBase; split <;> rfl
@[simp] theorem Ops.unknownBase_launch (ops : Ops) (s : State) : (ops.unknownBase s).launch = s.launch := by
  unfold Ops.unknownBase; split <;> rfl
@[simp] theorem Ops.unknownBase_condAnswers (ops : Ops) (s : State) : (ops.unknownBase s).condAnswers = s.condAnswers := by
  unfold Ops.unknownBase; split <;> rfl

theorem Ops.unknownBase_readGpr_other {ops : Ops} {i : Fin 16} (h : ops.wback = false ∨ ops.n ≠ i) (s : State) :
    (ops.unknownBase s).readGpr i = s.readGpr i := by
  unfold Ops.unknownBase
  split
  · rename_i hw
    exact State.readGpr_writeGpr_other s (h.resolve_left (by simp [hw])) _
  · rfl

end Sys2Proof.Machine
end

