-- ==== Sys2Proof/Laws/PerInstr.lean ====
section
/-! SUPPORT. Facts about each constructor of Instr, one lemma per constructor: a well-formed instruction is the row its own fields
belong to (rule R88 steps 2 and 3). -/

namespace Sys2Proof.Laws

/-- A well-formed instruction is the one that its instruction set and its fields select. -/
def RowOfFields.Statement (i : Instr) : Prop := i.wellFormed = true → rowOf i.iset i.fields = i

theorem RowOfFields.a1Nowb (dd : BitVec 5) (rn ia : BitVec 4) : RowOfFields.Statement (.a1Nowb dd rn ia) := fun _ => rfl
theorem RowOfFields.a1Posti (dd : BitVec 5) (rn ia : BitVec 4) : RowOfFields.Statement (.a1Posti dd rn ia) := fun _ => rfl
theorem RowOfFields.a1Postr (dd : BitVec 5) (rn ia rm : BitVec 4) : RowOfFields.Statement (.a1Postr dd rn ia rm) := by
  intro h
  simp only [Instr.wellFormed, isIndexReg, Bool.and_eq_true, bne_iff_ne] at h
  simp [rowOf, Instr.iset, Instr.fields, byForm, h.1, h.2]
theorem RowOfFields.a2Nowb (dd : BitVec 5) (rn ia : BitVec 4) : RowOfFields.Statement (.a2Nowb dd rn ia) := fun _ => rfl
theorem RowOfFields.a2Posti (dd : BitVec 5) (rn ia : BitVec 4) : RowOfFields.Statement (.a2Posti dd rn ia) := fun _ => rfl
theorem RowOfFields.a2Postr (dd : BitVec 5) (rn ia rm : BitVec 4) : RowOfFields.Statement (.a2Postr dd rn ia rm) := by
  intro h
  simp only [Instr.wellFormed, isIndexReg, Bool.and_eq_true, bne_iff_ne] at h
  simp [rowOf, Instr.iset, Instr.fields, byForm, h.1, h.2]
theorem RowOfFields.a3Nowb (dd : BitVec 5) (rn ia : BitVec 4) : RowOfFields.Statement (.a3Nowb dd rn ia) := fun _ => rfl
theorem RowOfFields.a3Posti (dd : BitVec 5) (rn ia : BitVec 4) : RowOfFields.Statement (.a3Posti dd rn ia) := fun _ => rfl
theorem RowOfFields.a3Postr (dd : BitVec 5) (rn ia rm : BitVec 4) : RowOfFields.Statement (.a3Postr dd rn ia rm) := by
  intro h
  simp only [Instr.wellFormed, isIndexReg, Bool.and_eq_true, bne_iff_ne] at h
  simp [rowOf, Instr.iset, Instr.fields, byForm, h.1, h.2]
theorem RowOfFields.a32Size11 (dd : BitVec 5) (rn ia rm : BitVec 4) : RowOfFields.Statement (.a32Size11 dd rn ia rm) := fun _ => rfl
theorem RowOfFields.t1Nowb (dd : BitVec 5) (rn ia : BitVec 4) : RowOfFields.Statement (.t1Nowb dd rn ia) := fun _ => rfl
theorem RowOfFields.t1Posti (dd : BitVec 5) (rn ia : BitVec 4) : RowOfFields.Statement (.t1Posti dd rn ia) := fun _ => rfl
theorem RowOfFields.t1Postr (dd : BitVec 5) (rn ia rm : BitVec 4) : RowOfFields.Statement (.t1Postr dd rn ia rm) := by
  intro h
  simp only [Instr.wellFormed, isIndexReg, Bool.and_eq_true, bne_iff_ne] at h
  simp [rowOf, Instr.iset, Instr.fields, byForm, h.1, h.2]
theorem RowOfFields.t2Nowb (dd : BitVec 5) (rn ia : BitVec 4) : RowOfFields.Statement (.t2Nowb dd rn ia) := fun _ => rfl
theorem RowOfFields.t2Posti (dd : BitVec 5) (rn ia : BitVec 4) : RowOfFields.Statement (.t2Posti dd rn ia) := fun _ => rfl
theorem RowOfFields.t2Postr (dd : BitVec 5) (rn ia rm : BitVec 4) : RowOfFields.Statement (.t2Postr dd rn ia rm) := by
  intro h
  simp only [Instr.wellFormed, isIndexReg, Bool.and_eq_true, bne_iff_ne] at h
  simp [rowOf, Instr.iset, Instr.fields, byForm, h.1, h.2]
theorem RowOfFields.t3Nowb (dd : BitVec 5) (rn ia : BitVec 4) : RowOfFields.Statement (.t3Nowb dd rn ia) := fun _ => rfl
theorem RowOfFields.t3Posti (dd : BitVec 5) (rn ia : BitVec 4) : RowOfFields.Statement (.t3Posti dd rn ia) := fun _ => rfl
theorem RowOfFields.t3Postr (dd : BitVec 5) (rn ia rm : BitVec 4) : RowOfFields.Statement (.t3Postr dd rn ia rm) := by
  intro h
  simp only [Instr.wellFormed, isIndexReg, Bool.and_eq_true, bne_iff_ne] at h
  simp [rowOf, Instr.iset, Instr.fields, byForm, h.1, h.2]
theorem RowOfFields.t32Size11 (dd : BitVec 5) (rn ia rm : BitVec 4) : RowOfFields.Statement (.t32Size11 dd rn ia rm) := fun _ => rfl

end Sys2Proof.Laws
end

