-- ==== Sys2Proof/Laws/Structure.lean ====
section
/-! SUPPORT. The element stores of the Operation, byte by byte: they write the bytes of the structure in rising order, and they are
admitted where the elements are in the words of the statements. -/

namespace Sys2Proof.Machine

theorem writeElements_append (m : Memory) (es fs : List Element) :
    writeElements m (es ++ fs) = writeElements (writeElements m es) fs := by
  induction es generalizing m with
  | nil => rfl
  | cons e rest ih => exact ih _

theorem AllAdmitted_append {s : State} {m : Memory} {es fs : List Element} :
    AllAdmitted s m (es ++ fs) ↔ AllAdmitted s m es ∧ AllAdmitted s (writeElements m es) fs := by
  induction es generalizing m with
  | nil => simp [AllAdmitted, writeElements]
  | cons e rest ih => simp only [List.cons_append, AllAdmitted, writeElements, ih, and_assoc]

/-- The operands of a Decode block agree with a row of the table. -/
structure Ops.Matches (ops : Ops) (shape : Shape) : Prop where
  ebytes : ops.ebytes = shape.ebytes
  index  : ops.index = shape.index
  inc    : ops.inc = shape.inc

/-- Storing the bytes from number `p` on extends the part of the structure that is stored. -/
theorem writeBytes_storedPrefix (s : State) (address : Word) (shape : Shape) (d p n : Nat) :
    Memory.writeBytes (storedPrefix s address shape d p) (address + BitVec.ofNat 32 p) ((List.range' p n).map (structureByte s shape d)) =
      storedPrefix s address shape d (p + n) := by
  induction n generalizing p with
  | zero => rfl
  | succ n ih =>
    have ha : address + BitVec.ofNat 32 p + 1#32 = address + BitVec.ofNat 32 (p + 1) := by
      rw [BitVec.ofNat_add, BitVec.add_assoc]
    rw [List.range'_succ, List.map_cons, Memory.writeBytes, ha]
    exact (ih (p + 1)).trans (by rw [Nat.add_right_comm, Nat.add_assoc])

/-- The bytes of element `k` are bytes `k*ebytes ..` of the structure (rule R159, "stated bytewise"). -/
theorem element_bytes {ops : Ops} {shape : Shape} (h : ops.Matches shape) (s : State) (address : Word) (k : Nat) :
    (ops.element s address k).bytes = (List.range' (k * shape.ebytes) shape.ebytes).map (structureByte s shape ops.d) := by
  apply List.ext_getElem?
  intro j
  by_cases hj : j < shape.ebytes
  · have hdiv : (k * shape.ebytes + j) / shape.ebytes = k := by
      rw [Nat.add_comm, Nat.add_mul_div_right _ _ (by omega), Nat.div_eq_of_lt hj, Nat.zero_add]
    have hmod : (k * shape.ebytes + j) % shape.ebytes = j := by
      rw [Nat.add_comm, Nat.add_mul_mod_self_right, Nat.mod_eq_of_lt hj]
    rw [Ops.element, bytesLE_lane_getElem? _ _ _ (h.ebytes.symm ▸ hj), List.getElem?_map, List.getElem?_range' hj]
    simp only [Option.map_some, structureByte, h.ebytes, h.index, h.inc, Nat.one_mul, hdiv, hmod]
  · rw [List.getElem?_eq_none (by simp [h.ebytes]; omega), List.getElem?_eq_none (by simp; omega)]

/-- The first `k` element stores leave the first `k*ebytes` bytes of the structure in memory. -/
theorem writeElements_first {ops : Ops} {shape : Shape} (h : ops.Matches shape) (s : State) (address : Word) (k : Nat) :
    writeElements s.mem ((List.range k).map (ops.element s address)) = storedPrefix s address shape ops.d (k * shape.ebytes) := by
  induction k with
  | zero => simp [writeElements, storedPrefix]
  | succ k ih =>
    have ha : (ops.element s address k).addr = address + BitVec.ofNat 32 (k * shape.ebytes) := by simp [Ops.element, h.ebytes]
    rw [List.range_succ, List.map_append, writeElements_append, ih, List.map_cons, List.map_nil, writeElements, writeElements, ha,
      element_bytes h, writeBytes_storedPrefix, Nat.succ_mul]

/-- One element: admitted in the words of the statements, admitted in the stores. -/
theorem admitted_of_elementAdmitted {ops : Ops} {shape : Shape} (h : ops.Matches shape) {s : State} {address : Word} {k : Nat}
    (hk : ElementAdmitted s address shape ops.d k) :
    Admitted s (storedPrefix s address shape ops.d (k * shape.ebytes)) (ops.element s address k) where
  admits := by
    rw [Ops.element_length, h.ebytes, Ops.element, h.ebytes]
    exact hk.admits
  launch := by
    rw [Ops.element_length, h.ebytes]
    intro a ha
    obtain ⟨j, hj, rfl⟩ := mem_addressRange.mp ha
    have := hk.launch j hj
    rwa [BitVec.ofNat_add, ← BitVec.add_assoc, ← h.ebytes] at this

/-- The first `k` elements: admitted one by one in the words of the statements, admitted in the stores. -/
theorem allAdmitted_first {ops : Ops} {shape : Shape} (h : ops.Matches shape) {s : State} {address : Word} {k : Nat}
    (hk : ∀ j, j < k → ElementAdmitted s address shape ops.d j) :
    AllAdmitted s s.mem ((List.range k).map (ops.element s address)) := by
  induction k with
  | zero => trivial
  | succ k ih =>
    rw [List.range_succ, List.map_append, AllAdmitted_append, writeElements_first h]
    exact ⟨ih fun j hj => hk j (Nat.lt_succ_of_lt hj), admitted_of_elementAdmitted h (hk k (Nat.lt_succ_self k)), trivial⟩

/-- Memory after the first `n` bytes of the structure, outside them. -/
theorem storedPrefix_read_other (s : State) (address : Word) (shape : Shape) (d n : Nat) {x : Nat}
    (h : ∀ b, b < n → (address + BitVec.ofNat 32 b).toNat ≠ x) :
    Memory.read (storedPrefix s address shape d n) x = Memory.read s.mem x := by
  induction n with
  | zero => rfl
  | succ n ih =>
    rw [storedPrefix, Memory.read_write_other _ (h n (Nat.lt_succ_self n))]
    exact ih fun b hb => h b (Nat.lt_succ_of_lt hb)

/-- Memory after the first `n` bytes of the structure, at byte `b` of them, where the structure does not wrap. -/
theorem storedPrefix_read_at (s : State) (address : Word) (shape : Shape) (d : Nat) {n b : Nat}
    (hw : address.toNat + n ≤ 2 ^ 32) (hb : b < n) :
    Memory.read (storedPrefix s address shape d n) (address.toNat + b) = some (structureByte s shape d b) := by
  have hx : ∀ c, c < n → (address + BitVec.ofNat 32 c).toNat = address.toNat + c := by
    intro c hc
    rw [BitVec.toNat_add, BitVec.toNat_ofNat]
    omega
  induction n with
  | zero => omega
  | succ n ih =>
    rw [storedPrefix]
    by_cases hn : b = n
    · subst hn
      rw [hx b (Nat.lt_succ_self b), Memory.read_write_same]
    · rw [Memory.read_write_other _ (by rw [hx n (Nat.lt_succ_self n)]; omega)]
      exact ih (by omega) (by omega) fun c hc => hx c (by omega)

end Sys2Proof.Machine
end

