-- ==== Sys2Proof/Tests/Slice0.lean ====
section
/-! SUPPORT. The model's own tests: words and results of section 95 of the spec, refusals of ill-formed terms, and for every
statement that has hypotheses a concrete state and operands that meet them. -/

namespace Sys2Proof.Tests

open Sys2Proof Sys2Proof.Machine

/-! ## States and readings -/

/-- Register `D[i]` of the pattern `DPAT` of section 95. -/
def dpat (i : Fin 32) : Dword :=
  BitVec.ofNat 64 (0x0706050403020100 + (if i.val < 16 then 16 * i.val else 0x80 + 8 * (i.val - 16)) * 0x0101010101010101)

/-- The reset state with `D = DPAT` and the registers given. -/
def regs (l : List (Fin 16 × Word)) : State :=
  l.foldl (fun s p => s.writeGpr p.1 p.2) { State.reset with dreg := Vector.ofFn dpat }

/-- The start state of an execution vector of section 95: `pc = 0x100`, the word placed there. -/
def vec (w : Nat) (l : List (Fin 16 × Word)) : State := (regs l).withFetchWord 32 w

/-- The state with other launch parameters. -/
def withLaunch (s : State) (f : Launch → Launch) : State := { s with launch := f s.launch }

/-- An outcome is `Next` with `pc = 0x104`, these bytes and no others in memory, and this value in a register. -/
def stored (o : Out) (addr : Word) (bytes : List Byte) (n : Fin 16) (v : Word) : Bool :=
  match o with
  | .next t => t.memRead addr bytes.length == some bytes && t.mem.length == bytes.length && t.readGpr n == v && t.pc == 0x104#32
  | .fault _ => false
  | .refused _ => false

/-- An outcome is `Next`, with nothing stored, `pc + 4`, and every register as in a state. -/
def skipped (o : Out) (s : State) : Bool :=
  match o with
  | .next t => t.mem == s.mem && t.gpr == s.gpr && t.dreg == s.dreg && t.pc == s.pc + 4#32
  | .fault _ => false
  | .refused _ => false

/-- An outcome is this refusal. -/
def refuses (o : Out) (reason : Refusal) : Bool :=
  match o with
  | .next _ => false
  | .fault _ => false
  | .refused r => r == reason

/-- An outcome is Undefined Instruction with this word recorded. -/
def undefinedAt (o : Out) (word : Word) : Bool :=
  match o with
  | .fault (.undefinedInstruction pc w _) => pc == 0x100#32 && w == word
  | _ => false

/-- An outcome is the Hyp trap with this word recorded. -/
def trappedAt (o : Out) (word : Word) : Bool :=
  match o with
  | .fault (.hypTrap pc w _) => pc == 0x100#32 && w == word
  | _ => false

/-- An outcome is the Alignment fault with this address recorded. -/
def misalignedAt (o : Out) (address : Dword) : Bool :=
  match o with
  | .fault (.dataAbort (.alignmentFault acc a) t) => a == address && acc == ⟨.store, .asimd, false, false, true⟩ && t.mem == []
  | _ => false

/-- An outcome is `DataAbort(other)` with this information and with memory as `p` says. -/
def abortedWith (o : Out) (info : AbortInfo) (p : Memory → Bool) : Bool :=
  match o with
  | .fault (.dataAbort (.other i) t) => i == info && t.pc == 0x100#32 && p t.mem
  | _ => false

/-- An outcome is stuck at this address. -/
def stuckAt (o : Out) (address : Word) : Bool :=
  match o with
  | .fault (.outsideLaunchMemory a) => a == address
  | _ => false

/-! ## Ill-formed terms are refused (rules R88, R91, R95, R97 to R99) -/

theorem test_postr_rm13_illformed : (Instr.a1Postr 0 0 0 13).wellFormed = false := by decide
theorem test_postr_rm15_illformed : (Instr.t3Postr 0 0 0 15).wellFormed = false := by decide
theorem test_postr_rm12_rm14_wellformed : ((Instr.a2Postr 0 0 0 12).wellFormed && (Instr.t2Postr 0 0 0 14).wellFormed) = true := by
  decide

/-- The line of rule R101's example. -/
def exampleLine : AsmLine := ⟨false, .b16, 0, true, 2, 1, some 64, .postIndexed⟩

theorem test_line_assembles : assemble .a32 exampleLine = some 0xF48107BD#32 := by decide
theorem test_line_t32_conditional : assemble .t32 { exampleLine with conditional := true } = some 0xF98107BD#32 := by decide
theorem test_line_a32_conditional_refused : assemble .a32 { exampleLine with conditional := true } = none := by decide
theorem test_line_double_8_refused : assemble .a32 { exampleLine with size := .b8, align := none } = none := by decide
theorem test_line_index_4_of_16_refused : assemble .a32 { exampleLine with index := 4 } = none := by decide
theorem test_line_align_128_of_16_refused : assemble .a32 { exampleLine with align := some 128 } = none := by decide
theorem test_line_base_15_refused : assemble .a32 { exampleLine with rn := 15 } = none := by decide
theorem test_line_rm_13_refused : assemble .a32 { exampleLine with form := .postIndexedBy 13 } = none := by decide
theorem test_line_list_past_end_refused : assemble .a32 { exampleLine with first := 26 } = none := by decide
theorem test_line_list_to_end : assemble .a32 { exampleLine with first := 25 } = some 0xF4C197BD#32 := by decide
theorem test_line_reads_back : (decodeTableWord 32 0xF48107BD).map disassemble = some (some exampleLine) := by decide
theorem test_line_text : exampleLine.text = "VST4.16 " ++ String.singleton (Char.ofNat 123) ++ "D0[2], D2[2], D4[2], D6[2]" ++
    String.singleton (Char.ofNat 125) ++ ", [R1:64]!" := by decide

/-! ## One word of every encoding, written out from rule R81 (values of V2 and V3) -/

theorem test_decode_a1Nowb : decodeTableWord 32 0b11110100110000000000001100111111 = some (.a1Nowb 16 0 3) := by decide
theorem test_decode_a1Posti : decodeTableWord 32 0b11110100100011010000001111101101 = some (.a1Posti 0 13 14) := by decide
theorem test_decode_a1Postr : decodeTableWord 32 0b11110100100000010100001101110010 = some (.a1Postr 4 1 7 2) := by decide
theorem test_decode_a2Nowb : decodeTableWord 32 0b11110100100001011000011111001111 = some (.a2Nowb 8 5 12) := by decide
theorem test_decode_a2Posti : decodeTableWord 32 0b11110100100000010000011110111101 = some (.a2Posti 0 1 11) := by decide
theorem test_decode_a2Postr : decodeTableWord 32 0b11110100100000110001011100100011 = some (.a2Postr 1 3 2 3) := by decide
theorem test_decode_a3Nowb : decodeTableWord 32 0b11110100100000000000101101011111 = some (.a3Nowb 0 0 5) := by decide
theorem test_decode_a3Posti : decodeTableWord 32 0b11110100110011101100101110001101 = some (.a3Posti 28 14 8) := by decide
theorem test_decode_a3Postr : decodeTableWord 32 0b11110100110011001001101111011110 = some (.a3Postr 25 12 13 14) := by decide
theorem test_decode_a32Size11 : decodeTableWord 32 0b11110100100000000000111100001111 = some (.a32Size11 0 0 0 15) := by decide
theorem test_decode_t1Nowb : decodeTableWord 32 0b11111001100000000000001100001111 = some (.t1Nowb 0 0 0) := by decide
theorem test_decode_t1Posti : decodeTableWord 32 0b11111001100001000010001110111101 = some (.t1Posti 2 4 11) := by decide
theorem test_decode_t1Postr : decodeTableWord 32 0b11111001110001110000001111001100 = some (.t1Postr 16 7 12 12) := by decide
theorem test_decode_t2Nowb : decodeTableWord 32 0b11111001110010010100011101011111 = some (.t2Nowb 20 9 5) := by decide
theorem test_decode_t2Posti : decodeTableWord 32 0b11111001100000010000011110111101 = some (.t2Posti 0 1 11) := by decide
theorem test_decode_t2Postr : decodeTableWord 32 0b11111001100010100011011111101110 = some (.t2Postr 3 10 14 14) := by decide
theorem test_decode_t3Nowb : decodeTableWord 32 0b11111001110001101001101101001111 = some (.t3Nowb 25 6 4) := by decide
theorem test_decode_t3Posti : decodeTableWord 32 0b11111001100010111100101110011101 = some (.t3Posti 12 11 9) := by decide
theorem test_decode_t3Postr : decodeTableWord 32 0b11111001100000100100101110100011 = some (.t3Postr 4 2 10 3) := by decide
theorem test_decode_t32Size11 : decodeTableWord 32 0b11111001100000000000111100001111 = some (.t32Size11 0 0 0 15) := by decide
theorem test_bytes_a32 : decode .a32 [0xA3, 0x4B, 0x82, 0xF4, 0x00] = .ok (.a3Postr 4 2 10 3, [0x00]) := by rfl
theorem test_bytes_t32 : decode .t32 [0x84, 0xF9, 0xBD, 0x23] = .ok (.t1Posti 2 4 11, []) := by rfl
theorem test_truncated : decode .a32 [0xA3, 0x4B, 0x82] = .error .truncated := by rfl
theorem test_load_not_in_scope : decodeTableWord 32 0xF4A0030F = none := by decide
theorem test_bit20_not_in_scope : decodeTableWord 32 0xF490030F = none := by decide
theorem test_other_structure_not_in_scope : decodeTableWord 32 0xF480020F = none := by decide
theorem test_a32_word_in_t32 : decodeWord .t32 0xF480030F#32 = .error .notInScope := by rfl
theorem test_t32_word_in_a32 : decodeWord .a32 0xF980030F#32 = .error .notInScope := by rfl

/-! ## Executions (V4 to V7) -/

theorem test_a1Nowb_stores : stored (step (vec 0xF4C0C30F [(0, 0x1000)])) 0x1000
    [0xE0, 0xE8, 0xF0, 0xF8] 0 0x1000 = true := by decide
theorem test_a1Posti_stores : stored (step (vec 0xF480030D [(0, 0xFFFFFFFC)])) 0xFFFFFFFC
    [0x00, 0x10, 0x20, 0x30] 0 0x0 = true := by decide
theorem test_a1Postr_stores : stored (step (vec 0xF4814372 [(1, 0x3000), (2, 0xFFFFFFFC)])) 0x3000
    [0x43, 0x53, 0x63, 0x73] 1 0x2FFC = true := by decide
theorem test_a2Nowb_stores : stored (step (vec 0xF4C0972F [(0, 0x1000)])) 0x1000
    [0xC8, 0xC9, 0xD8, 0xD9, 0xE8, 0xE9, 0xF8, 0xF9] 0 0x1000 = true := by decide
theorem test_a2Posti_stores : stored (step (vec 0xF48107BD [(1, 0x5008)])) 0x5008
    [0x04, 0x05, 0x24, 0x25, 0x44, 0x45, 0x64, 0x65] 1 0x5010 = true := by decide
theorem test_a2Postr_stores : stored (step (vec 0xF4831723 [(3, 0x6000)])) 0x6000
    [0x10, 0x11, 0x30, 0x31, 0x50, 0x51, 0x70, 0x71] 3 0xC000 = true := by decide
theorem test_a3Nowb_stores : stored (step (vec 0xF4800B5F [(0, 0x7008)])) 0x7008
    [0x00, 0x01, 0x02, 0x03, 0x20, 0x21, 0x22, 0x23, 0x40, 0x41, 0x42, 0x43, 0x60, 0x61, 0x62, 0x63] 0 0x7008 = true := by decide
theorem test_a3Posti_stores : stored (step (vec 0xF4CECB8D [(14, 0x8000)])) 0x8000
    [0xE4, 0xE5, 0xE6, 0xE7, 0xEC, 0xED, 0xEE, 0xEF, 0xF4, 0xF5, 0xF6, 0xF7, 0xFC, 0xFD, 0xFE, 0xFF] 14 0x8010 = true := by decide
theorem test_a3Postr_stores : stored (step (vec 0xF4CC9BDE [(12, 0x7FFFFFF8), (14, 0x80000008)])) 0x7FFFFFF8
    [0xCC, 0xCD, 0xCE, 0xCF, 0xDC, 0xDD, 0xDE, 0xDF, 0xEC, 0xED, 0xEE, 0xEF, 0xFC, 0xFD, 0xFE, 0xFF] 12 0x0 = true := by decide
theorem test_t1Nowb_stores : stored (step (vec 0xF980030F [(0, 0x1000)])) 0x1000
    [0x00, 0x10, 0x20, 0x30] 0 0x1000 = true := by decide
theorem test_t1Posti_stores : stored (step (vec 0xF98423BD [(4, 0x1004)])) 0x1004
    [0x25, 0x35, 0x45, 0x55] 4 0x1008 = true := by decide
theorem test_t1Postr_stores : stored (step (vec 0xF9C703CC [(7, 0x2003), (12, 0x10)])) 0x2003
    [0x86, 0x8E, 0x96, 0x9E] 7 0x2013 = true := by decide
theorem test_t2Nowb_stores : stored (step (vec 0xF9C9475F [(9, 0x3008)])) 0x3008
    [0xA2, 0xA3, 0xAA, 0xAB, 0xB2, 0xB3, 0xBA, 0xBB] 9 0x3008 = true := by decide
theorem test_t2Posti_stores : stored (step (vec 0xF98107BD [(1, 0x5008)])) 0x5008
    [0x04, 0x05, 0x24, 0x25, 0x44, 0x45, 0x64, 0x65] 1 0x5010 = true := by decide
theorem test_t2Postr_stores : stored (step (vec 0xF98A37EE [(10, 0x4000), (14, 0x8)])) 0x4000
    [0x36, 0x37, 0x56, 0x57, 0x76, 0x77, 0x96, 0x97] 10 0x4008 = true := by decide
theorem test_t3Nowb_stores : stored (step (vec 0xF9C69B4F [(6, 0x5002)])) 0x5002
    [0xC8, 0xC9, 0xCA, 0xCB, 0xD8, 0xD9, 0xDA, 0xDB, 0xE8, 0xE9, 0xEA, 0xEB, 0xF8, 0xF9, 0xFA, 0xFB] 6 0x5002 = true := by decide
theorem test_t3Posti_stores : stored (step (vec 0xF98BCB9D [(11, 0x6008)])) 0x6008
    [0xC4, 0xC5, 0xC6, 0xC7, 0xD4, 0xD5, 0xD6, 0xD7, 0xE4, 0xE5, 0xE6, 0xE7, 0xF4, 0xF5, 0xF6, 0xF7] 11 0x6018 = true := by decide
theorem test_t3Postr_stores : stored (step (vec 0xF9824BA3 [(2, 0x9010), (3, 0x20)])) 0x9010
    [0x44, 0x45, 0x46, 0x47, 0x54, 0x55, 0x56, 0x57, 0x64, 0x65, 0x66, 0x67, 0x74, 0x75, 0x76, 0x77] 2 0x9030 = true := by decide

/-- `R0 = 0x1000` and, where said, other launch parameters: a word of V6 or V7 with its outcome. -/
def a3At (base : Word) (f : Launch → Launch) : State := withLaunch (vec 0xF4800B5F [(0, base)]) f

theorem test_a32Size11_undefined : undefinedAt (step (vec 0xF4800F0F [])) 0xF4800F0F = true := by decide
theorem test_t32Size11_undefined : undefinedAt (step (vec 0xF9800F0F [])) 0xF9800F0F = true := by decide
theorem test_t32Size11_failed_condition : refuses (step { vec 0xF9800F0F [] with condAnswers := [false] }) .condFailedOnBadEncoding = true := by
  decide
theorem test_reserved_alignment_undefined : undefinedAt (step (vec 0xF4800B3F [])) 0xF4800B3F = true := by decide
theorem test_undefined_before_base_15 : undefinedAt (step (vec 0xF98F0B7F [])) 0xF98F0B7F = true := by decide
theorem test_failed_condition_bad_encoding : refuses (step { vec 0xF98F0B7F [] with condAnswers := [false] }) .condFailedOnBadEncoding = true := by
  decide
theorem test_base_15_refused : refuses (step (vec 0xF48F030F [])) .unpredictableBaseIsPC = true := by decide
theorem test_base_15_before_list : refuses (step (vec 0xF4CFD30F [])) .unpredictableBaseIsPC = true := by decide
theorem test_misaligned_4 : misalignedAt (step (vec 0xF4814372 [(1, 0x3002)])) 0x3002 = true := by decide
theorem test_misaligned_8 : misalignedAt (step (vec 0xF48107BD [(1, 0x5004)])) 0x5004 = true := by decide
theorem test_misaligned_16 : misalignedAt (step (vec 0xF4824BA3 [(2, 0x9008), (3, 0x20)])) 0x9008 = true := by decide
theorem test_strict_misaligned :
    misalignedAt (step (withLaunch (vec 0xF48587CF [(5, 0x4001)]) ({ · with strictElementAlign := true }))) 0x4001 = true := by decide
theorem test_strict_aligned : stored (step (withLaunch (vec 0xF48587CF [(5, 0x4002)]) ({ · with strictElementAlign := true }))) 0x4002
    [0x86, 0x87, 0x96, 0x97, 0xA6, 0xA7, 0xB6, 0xB7] 5 0x4002 = true := by decide
theorem test_address_wrap : refuses (step (vec 0xF480030D [(0, 0xFFFFFFFD)])) .addressWrap = true := by decide
theorem test_store_into_text : refuses (step (vec 0xF488A390 [(8, 0x100)])) .storeIntoProgramText = true := by decide
theorem test_big_endian : refuses (step (a3At 0x7008 ({ · with bigEndianData := true }))) .bigEndianData = true := by decide
theorem test_unit_undefined :
    undefinedAt (step (a3At 0x7008 ({ · with advSimdRule := ⟨[], .undef⟩ }))) 0xF4800B5F = true := by decide
theorem test_hyp_trap_before_alignment :
    trappedAt (step (a3At 0x7004 ({ · with advSimdRule := ⟨[(simdAtReset, .hypTrap)], .enabled⟩ }))) 0xF4800B5F = true := by decide
theorem test_abort_of_third_element : abortedWith (step (a3At 0x7008 ({ · with memAdmit :=
      [⟨.always, ⟨.store, .asimd, false, false, true⟩, 0x7010, 4, ⟨.permission, 0x7010⟩⟩] }))) ⟨.permission, 0x7010⟩
    (fun m => m.map (·.1) == (List.range 12).map (0x7008 + ·)) = true := by decide
/-- `MemAdmit` asked of the third element sees what the first stored (byte 0x00 of D0 at 0x7008). -/
theorem test_abort_depends_on_stored_byte : abortedWith (step (a3At 0x7008 ({ · with memAdmit :=
      [⟨.both (.byteIs 0x7008 (some 0x00)) (.negated (.byteIs 0x7010 (some 0x40))), ⟨.store, .asimd, false, false, true⟩, 0x7010, 4,
        ⟨.permission, 0x7010⟩⟩] }))) ⟨.permission, 0x7010⟩ (fun m => m.length == 12) = true := by decide
theorem test_admitted_where_state_differs : (match step (a3At 0x7008 ({ · with memAdmit :=
      [⟨.gprIs 1 5, ⟨.store, .asimd, false, false, true⟩, 0x7010, 4, ⟨.permission, 0x7010⟩⟩] })) with
    | .next t => t.mem.length == 16
    | .fault _ => false
    | .refused _ => false) = true := by decide
theorem test_stuck_outside_launch_memory :
    stuckAt (step (a3At 0x7008 ({ · with launchMemory := [⟨0x7000, 0x12⟩] }))) 0x7012 = true := by decide
theorem test_failed_condition_skips : skipped (step { vec 0xF98423BD [(4, 0x1005)] with condAnswers := [false] })
    (vec 0xF98423BD [(4, 0x1005)]) = true := by decide
theorem test_list_past_end_refuse : refuses (step (vec 0xF4C0D31D [(0, 0x1000)]))
    .constrainedUnpredictableRegisterList = true := by decide
theorem test_list_past_end_undef :
    undefinedAt (step (withLaunch (vec 0xF4C0D31D [(0, 0x1000)]) ({ · with cuD4 := .undef }))) 0xF4C0D31D = true := by decide
theorem test_list_past_end_nop : skipped (step (withLaunch (vec 0xF4C0D31D [(0, 0x1000)]) ({ · with cuD4 := .nop })))
    (vec 0xF4C0D31D [(0, 0x1000)]) = true := by decide
theorem test_not_in_scope : refuses (step (withLaunch (vec 0xF480030F []) ({ · with iset := .t32 }))) .notInScope = true := by decide

/-! ## Witnesses: for every statement with hypotheses, a concrete state and operands that meet them together -/

/-- A check that gives the premises `CanStore` (used for the witnesses only). -/
def storable (s : State) (address : Word) (shape : Shape) (d : Nat) : Bool :=
  s.advSimdCheck == .enabled && decide (address.toNat % shape.alignment = 0) &&
    decide (s.launch.strictElementAlign = false ∨ address.toNat % shape.ebytes = 0) && !s.launch.bigEndianData &&
    decide (address.toNat + 4 * shape.ebytes ≤ 2 ^ 32) &&
    (s.launch.text.all fun c => decide (c.1 < address.toNat) || decide (address.toNat + 4 * shape.ebytes ≤ c.1)) &&
    ((List.range 4).all fun k => admitAnswer s address shape d k == none &&
      (List.range shape.ebytes).all fun j => s.inLaunchMemory (address + BitVec.ofNat 32 (k * shape.ebytes + j)))

theorem read_none_of_all {m : Memory} {a : Nat} (h : ∀ c ∈ m, c.1 ≠ a) : Memory.read m a = none := by
  induction m with
  | nil => rfl
  | cons c m ih =>
    obtain ⟨x, b⟩ := c
    have hx : x ≠ a := h (x, b) (by simp)
    simp only [Memory.read, hx, if_false]
    exact ih fun c hc => h c (by simp [hc])

theorem canStore_of_storable {s : State} {address : Word} {shape : Shape} {d : Nat} (h : storable s address shape d = true) :
    CanStore s address shape d := by
  simp only [storable, Bool.and_eq_true, decide_eq_true_eq, List.all_eq_true, List.mem_range, beq_iff_eq, Bool.or_eq_true,
    Bool.not_eq_true'] at h
  obtain ⟨⟨⟨⟨⟨⟨h1, h2⟩, h3⟩, h4⟩, h5⟩, h6⟩, h7⟩ := h
  exact ⟨h1, ⟨h2, h3, h4, h5, fun a ha hb => read_none_of_all fun c hc e => by have := h6 c hc; omega⟩,
    fun k hk => ⟨(h7 k hk).1, (h7 k hk).2⟩⟩

/-- The premises of `Completes` for an instruction at a state, as a check. -/
def completesAt (i : Instr) (sz : ElemSize) (s : State) : Bool :=
  match tableShape sz i.fields.ia with
  | none => false
  | some shape =>
    decide (i.fields.rn ≠ 15#4) && decide (firstReg i + 3 * shape.inc ≤ 31) && s.conditionPassed i.iset && storable s (baseAddress i s) shape (firstReg i)

/-- The premises of `Completes`, met together by one row of the table. -/
def Premises (i : Instr) (sz : ElemSize) (s : State) : Prop :=
  ∃ shape, tableShape sz i.fields.ia = some shape ∧ i.fields.rn ≠ 15#4 ∧ firstReg i + 3 * shape.inc ≤ 31 ∧
    s.conditionPassed i.iset = true ∧ CanStore s (baseAddress i s) shape (firstReg i)

theorem premises_of_completesAt {i : Instr} {sz : ElemSize} {s : State} (h : completesAt i sz s = true) : Premises i sz s := by
  unfold completesAt at h
  split at h
  · simp at h
  · next shape hs =>
    simp only [Bool.and_eq_true, decide_eq_true_eq] at h
    exact ⟨shape, hs, h.1.1.1, h.1.1.2, h.1.2, canStore_of_storable h.2⟩

theorem witness_a1Nowb_completes : Premises (.a1Nowb 28 0 0) .b8 (vec 0xF4C0C30F [(0, 0x1000)]) :=
  premises_of_completesAt (by decide)
theorem witness_a1Posti_completes : Premises (.a1Posti 0 0 0) .b8 (vec 0xF480030D [(0, 0xFFFFFFFC)]) :=
  premises_of_completesAt (by decide)
theorem witness_a1Postr_completes : Premises (.a1Postr 4 1 7 2) .b8 (vec 0xF4814372 [(1, 0x3000), (2, 0xFFFFFFFC)]) :=
  premises_of_completesAt (by decide)
theorem witness_a2Nowb_completes : Premises (.a2Nowb 25 0 2) .b16 (vec 0xF4C0972F [(0, 0x1000)]) :=
  premises_of_completesAt (by decide)
theorem witness_a2Posti_completes : Premises (.a2Posti 0 1 11) .b16 (vec 0xF48107BD [(1, 0x5008)]) :=
  premises_of_completesAt (by decide)
theorem witness_a2Postr_completes : Premises (.a2Postr 1 3 2 3) .b16 (vec 0xF4831723 [(3, 0x6000)]) :=
  premises_of_completesAt (by decide)
theorem witness_a3Nowb_completes : Premises (.a3Nowb 0 0 5) .b32 (vec 0xF4800B5F [(0, 0x7008)]) :=
  premises_of_completesAt (by decide)
theorem witness_a3Posti_completes : Premises (.a3Posti 28 14 8) .b32 (vec 0xF4CECB8D [(14, 0x8000)]) :=
  premises_of_completesAt (by decide)
theorem witness_a3Postr_completes : Premises (.a3Postr 25 12 13 14) .b32 (vec 0xF4CC9BDE [(12, 0x7FFFFFF8), (14, 0x80000008)]) :=
  premises_of_completesAt (by decide)
theorem witness_t1Nowb_completes : Premises (.t1Nowb 0 0 0) .b8 (vec 0xF980030F [(0, 0x1000)]) :=
  premises_of_completesAt (by decide)
theorem witness_t1Posti_completes : Premises (.t1Posti 2 4 11) .b8 (vec 0xF98423BD [(4, 0x1004)]) :=
  premises_of_completesAt (by decide)
theorem witness_t1Postr_completes : Premises (.t1Postr 16 7 12 12) .b8 (vec 0xF9C703CC [(7, 0x2003), (12, 0x10)]) :=
  premises_of_completesAt (by decide)
theorem witness_t2Nowb_completes : Premises (.t2Nowb 20 9 5) .b16 (vec 0xF9C9475F [(9, 0x3008)]) :=
  premises_of_completesAt (by decide)
theorem witness_t2Posti_completes : Premises (.t2Posti 0 1 11) .b16 (vec 0xF98107BD [(1, 0x5008)]) :=
  premises_of_completesAt (by decide)
theorem witness_t2Postr_completes : Premises (.t2Postr 3 10 14 14) .b16 (vec 0xF98A37EE [(10, 0x4000), (14, 0x8)]) :=
  premises_of_completesAt (by decide)
theorem witness_t3Nowb_completes : Premises (.t3Nowb 25 6 4) .b32 (vec 0xF9C69B4F [(6, 0x5002)]) :=
  premises_of_completesAt (by decide)
theorem witness_t3Posti_completes : Premises (.t3Posti 12 11 9) .b32 (vec 0xF98BCB9D [(11, 0x6008)]) :=
  premises_of_completesAt (by decide)
theorem witness_t3Postr_completes : Premises (.t3Postr 4 2 10 3) .b32 (vec 0xF9824BA3 [(2, 0x9010), (3, 0x20)]) :=
  premises_of_completesAt (by decide)

/-- An executable encoding whose condition passes with the unit enabled: the premises that several statements share. -/
def Ready (i : Instr) (shape : Shape) (s : State) : Prop :=
  Executable i shape ∧ s.conditionPassed i.iset = true ∧ s.advSimdCheck = .enabled

/-- The vector 0xF4814372 of V4, used for the witnesses. -/
def sA : State := vec 0xF4814372 [(1, 0x3000), (2, 0xFFFFFFFC)]

theorem witness_Executable : Executable (.a1Postr 4 1 7 2) ⟨1, 3, 1, 4⟩ := ⟨⟨.b8, rfl, rfl⟩, by decide, by decide⟩
theorem witness_Executable_d28 : Executable (.t1Nowb 28 0 0) ⟨1, 0, 1, 1⟩ := ⟨⟨.b8, rfl, rfl⟩, by decide, by decide⟩
theorem witness_Executable_d25_double : Executable (.t3Nowb 25 14 4) ⟨4, 0, 2, 1⟩ := ⟨⟨.b32, rfl, rfl⟩, by decide, by decide⟩
theorem witness_Executable_align16 : Executable (.a3Postr 4 2 10 3) ⟨4, 1, 1, 16⟩ := ⟨⟨.b32, rfl, rfl⟩, by decide, by decide⟩
theorem witness_Executable_align8 : Executable (.a2Posti 0 1 11) ⟨2, 2, 2, 8⟩ := ⟨⟨.b16, rfl, rfl⟩, by decide, by decide⟩
theorem witness_Executable_a3 : Executable (.a3Nowb 0 0 5) ⟨4, 0, 2, 8⟩ := ⟨⟨.b32, rfl, rfl⟩, by decide, by decide⟩
theorem witness_ListPastEnd_d29 : ListPastEnd (.a1Posti 29 0 1) ⟨1, 0, 1, 4⟩ := ⟨⟨.b8, rfl, rfl⟩, by decide, by decide⟩
theorem witness_ListPastEnd_d26_double : ListPastEnd (.t2Nowb 26 0 2) ⟨2, 0, 2, 1⟩ := ⟨⟨.b16, rfl, rfl⟩, by decide, by decide⟩

theorem witness_StepClosedForm : sA.pcAligned = true ∧ Memory.readBytes sA.launch.text sA.pc 4 = some [0x72, 0x43, 0x81, 0xF4] ∧
    decode sA.launch.iset [0x72, 0x43, 0x81, 0xF4] = .ok (.a1Postr 4 1 7 2, []) ∧ Executable (.a1Postr 4 1 7 2) ⟨1, 3, 1, 4⟩ ∧
    sA.conditionPassed .a32 = true ∧ CanStore sA (baseAddress (.a1Postr 4 1 7 2) sA) ⟨1, 3, 1, 4⟩ 4 :=
  ⟨by decide, by decide, rfl, witness_Executable, rfl, canStore_of_storable (by decide)⟩
theorem witness_StepClosedForm_t32 :
    let s := vec 0xF98107BD [(1, 0x5008)]
    s.pcAligned = true ∧ Memory.readBytes s.launch.text s.pc 4 = some [0x81, 0xF9, 0xBD, 0x07] ∧
    decode s.launch.iset [0x81, 0xF9, 0xBD, 0x07] = .ok (.t2Posti 0 1 11, []) ∧ Executable (.t2Posti 0 1 11) ⟨2, 2, 2, 8⟩ ∧
    s.conditionPassed .t32 = true ∧ CanStore s (baseAddress (.t2Posti 0 1 11) s) ⟨2, 2, 2, 8⟩ 0 :=
  ⟨by decide, by decide, rfl, ⟨⟨.b16, rfl, rfl⟩, by decide, by decide⟩, rfl, canStore_of_storable (by decide)⟩

theorem witness_DecodeOfEncode_rm12_rm14 : (Instr.t3Postr 31 15 15 12).wellFormed = true ∧ (Instr.a1Postr 31 15 15 14).wellFormed = true := by
  decide
theorem witness_EncodeOfDecode : decodeWord .t32 0xF9834B8F#32 = .ok (.t3Nowb 4 3 8) := by rfl
theorem witness_AssembledLine : exampleLine.wellFormed .a32 = true ∧ { exampleLine with first := 25 }.wellFormed .t32 = true ∧
    { exampleLine with first := 26 }.wellFormed .t32 = false ∧ { exampleLine with index := 3 }.wellFormed .a32 = true ∧
    { exampleLine with index := 4 }.wellFormed .a32 = false := by decide
theorem witness_DecodeBlock_clauses : tableShape .b32 3 = none ∧ tableShape .b16 2 = some ⟨2, 0, 2, 1⟩ ∧ (15#4).toNat = 15 ∧
    (14#4).toNat ≠ 15 ∧ 31 < (26#5).toNat + 3 * 2 ∧ (25#5).toNat + 3 * 2 ≤ 31 ∧ 31 < (29#5).toNat + 3 * 1 ∧ (28#5).toNat + 3 * 1 ≤ 31 := by
  decide
theorem witness_StepRuns_t32_halfword : let s := { vec 0xF98A37EE [] with pc := 0x102#32 }.withFetchWord 32 0xF98A37EE
    (s.launch.iset = .t32 ∧ s.pc.toNat % 2 = 0) ∧ s.pc.toNat % 4 = 2 ∧
    Memory.readBytes s.launch.text s.pc 4 = some [0x8A, 0xF9, 0xEE, 0x37] ∧
    decode s.launch.iset [0x8A, 0xF9, 0xEE, 0x37] = .ok (.t2Postr 3 10 14 14, []) ∧ (Instr.t2Postr 3 10 14 14).wellFormed = true :=
  ⟨by decide, by decide, by decide, rfl, by decide⟩
theorem witness_WordOutside : let s := withLaunch (vec 0xF480030F []) ({ · with iset := .t32 })
    s.pcAligned = true ∧ Memory.readBytes s.launch.text s.pc 4 = some [0x0F, 0x03, 0x80, 0xF4] ∧ s.launch.iset = .t32 ∧
    ((0x03#8 ++ 0x0F#8) ++ (0xF4#8 ++ 0x80#8) : Word) &&& 0xFFB00300#32 ≠ 0xF9800300#32 := by decide
theorem witness_WordOutside_a32 : let s := withLaunch (vec 0xF980030F []) ({ · with iset := .a32 })
    s.pcAligned = true ∧ Memory.readBytes s.launch.text s.pc 4 = some [0x80, 0xF9, 0x0F, 0x03] ∧ s.launch.iset = .a32 ∧
    ((0x03#8 ++ 0x0F#8) ++ (0xF9#8 ++ 0x80#8) : Word) &&& 0xFFB00300#32 ≠ 0xF4800300#32 := by decide
theorem witness_FetchWithoutStep : (State.reset.launch.iset = .a32 ∧ { State.reset with pc := 0x102#32 }.pc.toNat % 4 ≠ 0) ∧
    State.reset.pc.toNat % 4 = 0 ∧ Memory.readBytes State.reset.launch.text State.reset.pc 4 = none ∧
    ({ vec 0xF980030F [] with pc := 0x101#32 }.launch.iset = .t32 ∧ { vec 0xF980030F [] with pc := 0x101#32 }.pc.toNat % 2 ≠ 0) := by decide

/-- A T32 vector with the condition failing. -/
def sFail : State := { vec 0xF98423BD [(4, 0x1005)] with condAnswers := [false] }

theorem witness_FailedConditionOnlyAdvances : (Instr.t1Posti 2 4 11).iset = .t32 ∧ Executable (.t1Posti 2 4 11) ⟨1, 5, 1, 4⟩ ∧
    sFail.condAnswers.head? = some false := ⟨rfl, ⟨⟨.b8, rfl, rfl⟩, by decide, by decide⟩, rfl⟩
theorem witness_FailedConditionOnlyAdvances_a32 : (Instr.a1Postr 4 1 7 2).iset = .a32 ∧ ∃ t, exec (.a1Postr 4 1 7 2) sA = .next t :=
  ⟨rfl, _, rfl⟩
theorem witness_FailedConditionOnBadEncoding : sFail.condAnswers.head? = some false ∧ elemSize (.t32Size11 0 0 0 15) = none ∧
    reservedEncoding (.t3Nowb 0 15 7) = true ∧ (Instr.t1Nowb 0 15 0).fields.rn = 15#4 ∧ ∃ shape, ListPastEnd (.t2Nowb 26 0 2) shape :=
  ⟨rfl, rfl, by decide, rfl, _, witness_ListPastEnd_d26_double⟩
theorem witness_Size11 : 0xF4FFFFFF#32 &&& 0xFFB00F00#32 ≠ size11Bits .a32 ∧ 0xF4CFFFFF#32 &&& 0xFFB00F00#32 = size11Bits .a32 ∧
    0xF9CFFFFF#32 &&& 0xFFB00F00#32 = size11Bits .t32 ∧ State.reset.conditionPassed .t32 = true := by decide
theorem witness_ReservedAlignment : reservedEncoding (.a3Postr 29 15 15 14) = true ∧ reservedEncoding (.t3Nowb 0 0 3) = true ∧
    State.reset.conditionPassed .t32 = true := by decide
theorem witness_BaseFifteen : elemSize (.t1Postr 29 15 0 0) ≠ none ∧ reservedEncoding (.t1Postr 29 15 0 0) = false ∧
    (Instr.t1Postr 29 15 0 0).fields.rn = 15#4 ∧ State.reset.conditionPassed .t32 = true := by decide

/-- The word of V7 under a value of `CU_d4` and of the enable check. -/
def sList (cu : CuD4) (r : AdvSimdResult) : State :=
  withLaunch (vec 0xF4C0D31D [(0, 0x1000)]) fun l => { l with cuD4 := cu, advSimdRule := ⟨[], r⟩ }

theorem witness_ListPastEnd_clauses : ListPastEnd (.a1Posti 29 0 1) ⟨1, 0, 1, 4⟩ ∧
    (∀ cu r, (sList cu r).conditionPassed .a32 = true ∧ (sList cu r).launch.cuD4 = cu ∧ (sList cu r).advSimdCheck = r) :=
  ⟨witness_ListPastEnd_d29, fun _ _ => ⟨rfl, rfl, rfl⟩⟩
theorem witness_UnknownList : ListPastEnd (.a1Posti 29 0 1) ⟨1, 0, 1, 4⟩ ∧ (sList .unknown .enabled).launch.cuD4 = .unknown ∧
    (sList .unknown .enabled).advSimdCheck = .enabled ∧ (sList .unknown .undef).advSimdCheck = .undef ∧
    (sList .unknown .hypTrap).advSimdCheck = .hypTrap := ⟨witness_ListPastEnd_d29, rfl, rfl, rfl, rfl⟩
theorem witness_DisabledUnit : Executable (.a3Nowb 0 0 5) ⟨4, 0, 2, 8⟩ ∧
    (a3At 0x7004 ({ · with advSimdRule := ⟨[], .undef⟩ })).conditionPassed .a32 = true ∧
    (a3At 0x7004 ({ · with advSimdRule := ⟨[], .undef⟩ })).advSimdCheck = .undef ∧
    (a3At 0x7004 ({ · with advSimdRule := ⟨[], .hypTrap⟩ })).advSimdCheck = .hypTrap := ⟨witness_Executable_a3, rfl, rfl, rfl⟩
theorem witness_MisalignedBase_4 : Ready (.a1Postr 4 1 7 2) ⟨1, 3, 1, 4⟩ (vec 0xF4814372 [(1, 0x3002)]) ∧
    (baseAddress (.a1Postr 4 1 7 2) (vec 0xF4814372 [(1, 0x3002)])).toNat % 4 ≠ 0 := ⟨⟨witness_Executable, rfl, by decide⟩, by decide⟩
theorem witness_MisalignedBase_8 : Ready (.t2Posti 0 1 11) ⟨2, 2, 2, 8⟩ (vec 0xF98107BD [(1, 0x5004)]) ∧
    (baseAddress (.t2Posti 0 1 11) (vec 0xF98107BD [(1, 0x5004)])).toNat % 8 ≠ 0 :=
  ⟨⟨⟨⟨.b16, rfl, rfl⟩, by decide, by decide⟩, by decide, by decide⟩, by decide⟩
theorem witness_MisalignedBase_16 : Ready (.a3Postr 4 2 10 3) ⟨4, 1, 1, 16⟩ (vec 0xF4824BA3 [(2, 0x9008)]) ∧
    (baseAddress (.a3Postr 4 2 10 3) (vec 0xF4824BA3 [(2, 0x9008)])).toNat % 16 ≠ 0 :=
  ⟨⟨witness_Executable_align16, rfl, by decide⟩, by decide⟩

/-- A vector of V5 with element alignment as given; its base is odd. -/
def sOdd (strict : Bool) : State := withLaunch (vec 0xF48587CF [(5, 0x4001)]) ({ · with strictElementAlign := strict })

theorem witness_StrictElement (strict : Bool) : Ready (.a2Nowb 8 5 12) ⟨2, 3, 1, 1⟩ (sOdd strict) ∧
    (baseAddress (.a2Nowb 8 5 12) (sOdd strict)).toNat % 1 = 0 ∧ (baseAddress (.a2Nowb 8 5 12) (sOdd strict)).toNat % 2 ≠ 0 ∧
    (sOdd strict).launch.strictElementAlign = strict :=
  ⟨⟨⟨⟨.b16, rfl, rfl⟩, by decide, by decide⟩, rfl, rfl⟩, Nat.mod_one _, by revert strict; decide, rfl⟩
theorem witness_StrictElement_clear : CanStore (sOdd false) (baseAddress (.a2Nowb 8 5 12) (sOdd false)) ⟨2, 3, 1, 1⟩ 8 :=
  canStore_of_storable (by decide)
theorem witness_Refusals_bigEndian : let s := a3At 0x7008 ({ · with bigEndianData := true })
    Ready (.a3Nowb 0 0 5) ⟨4, 0, 2, 8⟩ s ∧ (baseAddress (.a3Nowb 0 0 5) s).toNat % 8 = 0 ∧ s.launch.strictElementAlign = false ∧
    s.launch.bigEndianData = true := ⟨⟨witness_Executable_a3, rfl, rfl⟩, by decide, rfl, rfl⟩
theorem witness_Executable_a1Posti : Executable (.a1Posti 0 0 0) ⟨1, 0, 1, 1⟩ := ⟨⟨.b8, rfl, rfl⟩, by decide, by decide⟩
theorem witness_Refusals_wrap : let s := vec 0xF480030D [(0, 0xFFFFFFFD)]
    Ready (.a1Posti 0 0 0) ⟨1, 0, 1, 1⟩ s ∧ (baseAddress (.a1Posti 0 0 0) s).toNat % 1 = 0 ∧ s.launch.strictElementAlign = false ∧
    s.launch.bigEndianData = false ∧ 2 ^ 32 < (baseAddress (.a1Posti 0 0 0) s).toNat + 4 * 1 :=
  ⟨⟨witness_Executable_a1Posti, rfl, rfl⟩, Nat.mod_one _, rfl, rfl, by decide⟩
theorem witness_Refusals_text_first_byte : let s := vec 0xF480030D [(0, 0xFD)]
    Ready (.a1Posti 0 0 0) ⟨1, 0, 1, 1⟩ s ∧ (baseAddress (.a1Posti 0 0 0) s).toNat % 1 = 0 ∧ s.launch.strictElementAlign = false ∧
    s.launch.bigEndianData = false ∧ (baseAddress (.a1Posti 0 0 0) s).toNat + 4 * 1 ≤ 2 ^ 32 ∧
    ∃ a, (baseAddress (.a1Posti 0 0 0) s).toNat ≤ a ∧ a < (baseAddress (.a1Posti 0 0 0) s).toNat + 4 * 1 ∧
      (Memory.read s.launch.text a).isSome = true :=
  ⟨⟨witness_Executable_a1Posti, rfl, rfl⟩, Nat.mod_one _, rfl, rfl, by decide, 0x100, by decide, by decide, by decide⟩
theorem witness_Refusals_text_last_byte : let s := vec 0xF480030D [(0, 0x103)]
    (baseAddress (.a1Posti 0 0 0) s).toNat ≤ 0x103 ∧ 0x103 < (baseAddress (.a1Posti 0 0 0) s).toNat + 4 * 1 ∧
    (Memory.read s.launch.text 0x103).isSome = true := by decide

theorem witness_a3Nowb_storable : storable (a3At 0x7008 id) 0x7008 ⟨4, 0, 2, 8⟩ 0 = true := by decide

/-- The vector of V6 with element `k`'s store aborted by `MemAdmit`. -/
def sAbort (k : Nat) : State := a3At 0x7008 ({ · with memAdmit := [⟨.always, ⟨.store, .asimd, false, false, true⟩,
  0x7008 + BitVec.ofNat 32 (k * 4), 4, ⟨.permission, 0x7008⟩⟩] })

theorem checks_of_storable {s s' : State} {address : Word} {shape : Shape} {d : Nat} (h : storable s address shape d = true)
    (hl : s'.launch.text = s.launch.text) (hb : s'.launch.bigEndianData = s.launch.bigEndianData)
    (hs : s'.launch.strictElementAlign = s.launch.strictElementAlign) : PassesChecks s' address shape := by
  obtain ⟨h1, h2, h3, h4, h5⟩ := (canStore_of_storable h).checks
  exact ⟨h1, hs ▸ h2, hb ▸ h3, h4, hl ▸ h5⟩

theorem witness_AbortedElement_first : Ready (.a3Nowb 0 0 5) ⟨4, 0, 2, 8⟩ (sAbort 0) ∧
    PassesChecks (sAbort 0) (baseAddress (.a3Nowb 0 0 5) (sAbort 0)) ⟨4, 0, 2, 8⟩ ∧
    (∀ j, j < 0 → ElementAdmitted (sAbort 0) (baseAddress (.a3Nowb 0 0 5) (sAbort 0)) ⟨4, 0, 2, 8⟩ 0 j) ∧
    admitAnswer (sAbort 0) (baseAddress (.a3Nowb 0 0 5) (sAbort 0)) ⟨4, 0, 2, 8⟩ 0 0 = some ⟨.permission, 0x7008⟩ :=
  ⟨⟨witness_Executable_a3, rfl, by decide⟩, checks_of_storable witness_a3Nowb_storable rfl rfl rfl, fun _ h => absurd h (by omega), by decide⟩
theorem witness_AbortedElement_last : Ready (.a3Nowb 0 0 5) ⟨4, 0, 2, 8⟩ (sAbort 3) ∧
    PassesChecks (sAbort 3) (baseAddress (.a3Nowb 0 0 5) (sAbort 3)) ⟨4, 0, 2, 8⟩ ∧
    (∀ j, j < 3 → ElementAdmitted (sAbort 3) (baseAddress (.a3Nowb 0 0 5) (sAbort 3)) ⟨4, 0, 2, 8⟩ 0 j) ∧
    admitAnswer (sAbort 3) (baseAddress (.a3Nowb 0 0 5) (sAbort 3)) ⟨4, 0, 2, 8⟩ 0 3 = some ⟨.permission, 0x7008⟩ :=
  ⟨⟨witness_Executable_a3, rfl, by decide⟩, checks_of_storable witness_a3Nowb_storable rfl rfl rfl,
    fun j hj => ⟨by revert j; decide, by revert j; decide⟩, by decide⟩

/-- The vector of V6 with `LaunchMemory` ending inside element 2. -/
def sHole : State := a3At 0x7008 ({ · with launchMemory := [⟨0x7000, 0x12⟩] })

theorem witness_StoreOutside : Ready (.a3Nowb 0 0 5) ⟨4, 0, 2, 8⟩ sHole ∧
    PassesChecks sHole (baseAddress (.a3Nowb 0 0 5) sHole) ⟨4, 0, 2, 8⟩ ∧
    (∀ j, j < 2 → ElementAdmitted sHole (baseAddress (.a3Nowb 0 0 5) sHole) ⟨4, 0, 2, 8⟩ 0 j) ∧
    admitAnswer sHole (baseAddress (.a3Nowb 0 0 5) sHole) ⟨4, 0, 2, 8⟩ 0 2 = none ∧
    (∃ j, j < 4 ∧ sHole.inLaunchMemory (baseAddress (.a3Nowb 0 0 5) sHole + BitVec.ofNat 32 (2 * 4 + j)) = false) :=
  ⟨⟨witness_Executable_a3, rfl, by decide⟩, checks_of_storable witness_a3Nowb_storable rfl rfl rfl,
    fun j hj => ⟨by revert j; decide, by revert j; decide⟩, by decide, 2, by decide, by decide⟩

theorem witness_CausesOfUndefined_size11 : ∃ pc w r, exec (.a32Size11 0 0 0 15) State.reset = .fault (.undefinedInstruction pc w r) :=
  ⟨_, _, _, rfl⟩
theorem witness_CausesOfUndefined_reserved : ∃ pc w r, exec (.a3Nowb 0 15 3) State.reset = .fault (.undefinedInstruction pc w r) :=
  ⟨_, _, _, rfl⟩
theorem witness_CausesOfUndefined_unit : ∃ pc w r, exec (.a3Nowb 0 0 5) (a3At 0x7008 ({ · with advSimdRule := ⟨[], .undef⟩ })) =
    .fault (.undefinedInstruction pc w r) := ⟨_, _, _, rfl⟩
theorem witness_CausesOfUndefined_list : ∃ pc w r, exec (.a1Posti 29 0 1) (sList .undef .enabled) = .fault (.undefinedInstruction pc w r) :=
  ⟨_, _, _, rfl⟩
theorem witness_HypTrapOnly : ∃ pc w r, exec (.a3Nowb 0 0 5) (a3At 0x7004 ({ · with advSimdRule := ⟨[], .hypTrap⟩ })) =
    .fault (.hypTrap pc w r) := ⟨_, _, _, rfl⟩
theorem witness_HypTrapOnly_list : ∃ pc w r, exec (.a1Posti 29 0 1) (sList .unknown .hypTrap) = .fault (.hypTrap pc w r) := ⟨_, _, _, rfl⟩
theorem witness_AlignmentFault : ∃ acc a r, exec (.a1Postr 4 1 7 2) (vec 0xF4814372 [(1, 0x3002)]) =
    .fault (.dataAbort (.alignmentFault acc a) r) := ⟨_, _, _, rfl⟩
theorem witness_AlignmentFault_strict : ∃ acc a r, exec (.a2Nowb 8 5 12) (sOdd true) = .fault (.dataAbort (.alignmentFault acc a) r) :=
  ⟨_, _, _, rfl⟩
theorem witness_Refuses_base : exec (.a1Nowb 29 15 0) State.reset = .refused .unpredictableBaseIsPC := by rfl
theorem witness_Refuses_list : exec (.a1Posti 29 0 1) (sList .refuse .enabled) = .refused .constrainedUnpredictableRegisterList := by rfl
theorem witness_Refuses_condition : exec (.t1Nowb 29 0 0) sFail = .refused .condFailedOnBadEncoding := by rfl
theorem witness_Refuses_wrap : exec (.a1Posti 0 0 0) (vec 0xF480030D [(0, 0xFFFFFFFD)]) = .refused .addressWrap := by rfl

/-- For the statements about an instruction that completes (frame, data memory, Exception level). -/
theorem witness_Next : ∃ t, exec (.a1Postr 4 1 7 2) sA = .next t := ⟨_, rfl⟩
theorem witness_Frame_nowb : (∃ t, exec (.a3Nowb 0 0 5) (a3At 0x7008 id) = .next t) ∧ (Instr.a3Nowb 0 0 5).fields.rm = 15#4 ∧
    elemSize (.a3Nowb 0 0 5) ≠ none := ⟨⟨_, rfl⟩, rfl, by decide⟩
theorem witness_Frame_abort : ∃ a r, exec (.a3Nowb 0 0 5) (sAbort 2) = .fault (.dataAbort a r) := ⟨_, _, rfl⟩
theorem witness_DataMemory : (∀ m' acc address size, (sA.withMem m').memAdmit acc address size = sA.memAdmit acc address size) ∧
    ∃ t, exec (.a1Postr 4 1 7 2) sA = .next t := ⟨fun _ _ _ _ => rfl, _, rfl⟩
theorem witness_ExceptionLevel : (∀ m address size, (sA.withMem m).memAdmit ⟨.store, .asimd, false, false, true⟩ address size =
    (sA.withMem m).memAdmit ⟨.store, .asimd, false, false, false⟩ address size) ∧ ∃ t, exec (.a1Postr 4 1 7 2) sA = .next t :=
  ⟨fun _ _ _ => rfl, _, rfl⟩
theorem witness_Dit : ∃ t, step sA = .next t := ⟨_, rfl⟩
theorem witness_Invariant : sA.inv = true ∧ ∃ t, step sA = .next t := ⟨by decide, _, rfl⟩
theorem witness_Invariant_t32_halfword :
    let s := { vec 0xF98A37EE [(10, 0x4000)] with pc := 0x202#32 }.withFetchWord 32 0xF98A37EE
    s.inv = true ∧ ∃ t, step s = .next t := ⟨by decide, _, rfl⟩
/-- The last two instructions of program P4 at 0x100, in one text. -/
def sTwo : State := { ({ vec 0xF48043F1 [(0, 0x4000), (1, 6)] with pc := 0x104#32 }.withFetchWord 32 0xF480876D) with pc := 0x100#32 }
theorem witness_Runs : ∃ t, Runs 2 sTwo t := ⟨_, rfl⟩
/-- An abort of an executable encoding where `CU_d4` is Unknown. -/
def sRestart : State := withLaunch (sAbort 2) ({ · with cuD4 := .unknown })
theorem witness_Restartable : ¬ ((∃ shape, ListPastEnd (.a3Nowb 0 0 5) shape) ∧ sRestart.launch.cuD4 = .unknown) ∧
    (∃ r, exec (.a3Nowb 0 0 5) sRestart = .fault (.dataAbort (.other ⟨.permission, 0x7008⟩) r)) ∧
    ∃ t, exec (.a3Nowb 0 0 5) { sRestart with launch := { sRestart.launch with memAdmit := [] } } = .next t := by
  refine ⟨fun ⟨⟨shape, ⟨sz, hsz, hrow⟩, _, hl⟩, _⟩ => ?_, ⟨_, rfl⟩, _, rfl⟩
  cases hsz
  cases hrow
  exact absurd hl (by decide)
theorem witness_MemoryWrite : (0xFFFFFFFF : Nat) < 2 ^ 32 ∧ Memory.wf [(0, 1), (0xFFFFFFFF, 0)] = true ∧ Memory.wf [(1, 1), (0, 0)] = false := by
  decide

end Sys2Proof.Tests
end

/-! SUPPORT. Proofs of the family 00_scope.md: what is refused, and memory read after write. First the rules they need. -/

namespace Sys2Proof

/-- The fixed bits of a laid-out word under the mask of rule R88 step 1. -/
theorem layOut_and_mask (iset : ISet) (f : Fields) : layOut iset f &&& 0xFFB00300#32 = Machine.fixedBits iset := by
  apply BitVec.eq_of_getLsbD_eq
  intro k hk
  cases iset <;> interval_cases k <;>
    simp only [layOut, BitVec.getLsbD_and, BitVec.getLsbD_append] <;> simp [opcodeBits, Machine.fixedBits]

/-- A slice of a word is the slice of the word under a mask whose bits are all set there. -/
theorem extractLsb'_eq_of_mask {lo n : Nat} (w : Word) {m : Word} (h : m.extractLsb' lo n = BitVec.allOnes n) :
    w.extractLsb' lo n = (w &&& m).extractLsb' lo n := by
  rw [BitVec.extractLsb'_and, h, BitVec.and_allOnes]

/-- The three slices that `fixedBitsMatch` compares are the mask and match of rule R88 step 1. -/
theorem fixedBitsMatch_iff (iset : ISet) (w : Word) :
    fixedBitsMatch iset w = true ↔ w &&& 0xFFB00300#32 = Machine.fixedBits iset := by
  constructor
  · intro h
    rw [← layOut_fieldsOf h, layOut_and_mask]
  · intro h
    rw [fixedBitsMatch, extractLsb'_eq_of_mask (lo := 23) (n := 9) w (m := 0xFFB00300#32) rfl,
      extractLsb'_eq_of_mask (lo := 20) (n := 2) w (m := 0xFFB00300#32) rfl,
      extractLsb'_eq_of_mask (lo := 8) (n := 2) w (m := 0xFFB00300#32) rfl, h]
    cases iset <;> rfl

/-- A word without the fixed bits of the instruction set is none of its patterns (rule R88 step 1). -/
theorem decodeWord_notInScope {iset : ISet} {w : Word} (h : w &&& 0xFFB00300#32 ≠ Machine.fixedBits iset) :
    decodeWord iset w = .error .notInScope :=
  if_neg fun hm => h ((fixedBitsMatch_iff iset w).mp hm)

end Sys2Proof

namespace Sys2Proof.Machine

/-! ## A step -/

/-- Where the fetched bytes decode to no instruction, the step is refused as not in scope. -/
theorem step_of_decode_error {s : State} {bytes : List Byte} {e : DecodeError} (ha : s.pcAligned = true)
    (hf : s.fetchBytes = some bytes) (hd : decode s.launch.iset bytes = .error e) : step s = .refused .notInScope := by
  rw [step, if_pos ha, hf]
  dsimp only
  rw [hd]

/-! ## The program text -/

/-- A memory holds a value exactly at the addresses it lists. -/
theorem Memory.isSome_read_iff {m : Memory} {a : Nat} : (Memory.read m a).isSome = true ↔ ∃ c ∈ m, c.1 = a := by
  induction m with
  | nil => simp [Memory.read, Memory.unlisted]
  | cons c rest ih =>
    obtain ⟨x, b⟩ := c
    by_cases hx : x = a
    · simp [Memory.read, hx]
    · simpa [Memory.read, hx] using ih

/-- `meetsText` in the words of rule R66: a byte of the range is a byte of the program text. -/
theorem State.meetsText_iff {s : State} {addr : Word} {n : Nat} : s.meetsText addr n = true ↔
    ∃ a, addr.toNat ≤ a ∧ a < addr.toNat + n ∧ (Memory.read s.launch.text a).isSome = true := by
  simp only [State.meetsText, List.any_eq_true, Bool.and_eq_true, decide_eq_true_eq, Memory.isSome_read_iff]
  constructor
  · rintro ⟨c, hc, hlo, hhi⟩
    exact ⟨c.1, hlo, hhi, c, hc, rfl⟩
  · rintro ⟨_, hlo, hhi, c, hc, rfl⟩
    exact ⟨c, hc, hlo, hhi⟩

/-! ## Operands and the table of rule R86 -/

/-- The row of the table of rule R86 that the formulas of rules R85 and R86 compute. -/
def shapeOf (sz : ElemSize) (ia : BitVec 4) : Shape := ⟨ebytesOf sz, indexOf sz ia, incOf sz ia, alignmentOf sz ia⟩

/-- The table of rule R86 lists what the formulas compute, and is UNDEFINED at the reserved alignments. -/
theorem tableShape_eq (sz : ElemSize) (ia : BitVec 4) :
    tableShape sz ia = if reservedAlign sz ia then none else some (shapeOf sz ia) := by
  cases sz <;> revert ia <;> decide

/-- The Decode block of an instruction, by its element size and its fields; without an element size it is UNDEFINED (rule R89). -/
theorem decodeResult_eq_decodeBlock (i : Instr) : decodeResult i =
    (elemSize i).elim .undef fun sz => decodeBlock sz i.fields.dd i.fields.rn i.fields.ia i.fields.rm := by
  cases i <;> rfl

/-- The row of the table of rule R86 that an instruction selects; none where it is UNDEFINED (rules R89, R90). -/
def tableRow (i : Instr) : Option Shape := (elemSize i).bind fun sz => tableShape sz i.fields.ia

theorem tableRow_eq_some_iff {i : Instr} {shape : Shape} :
    tableRow i = some shape ↔ ∃ sz, elemSize i = some sz ∧ tableShape sz i.fields.ia = some shape :=
  Option.bind_eq_some_iff

/-- The operands of an instruction at a row of the table (rules R84 to R86). -/
def opsAt (i : Instr) (shape : Shape) : Ops where
  ebytes        := shape.ebytes
  index         := shape.index
  inc           := shape.inc
  alignment     := shape.alignment
  d             := firstReg i
  n             := baseReg i
  m             := i.fields.rm.toFin
  wback         := i.fields.rm != 15#4
  registerIndex := i.fields.rm != 15#4 && i.fields.rm != 13#4

/-- Without a row of the table the Decode block finds the word UNDEFINED. -/
theorem decodeResult_of_no_row {i : Instr} (h : tableRow i = none) : decodeResult i = .undef := by
  rw [decodeResult_eq_decodeBlock]
  cases hsz : elemSize i with
  | none => rfl
  | some sz =>
    rw [tableRow, hsz, Option.bind_some, tableShape_eq] at h
    have hres : reservedAlign sz i.fields.ia = true := by simpa using h
    simp [decodeBlock, hres]

/-- With a row of the table the Decode block tests `n == 15`, then `d4 > 31`, then gives the operands (rule R153). -/
theorem decodeResult_of_row {i : Instr} {shape : Shape} (h : tableRow i = some shape) : decodeResult i =
    if i.fields.rn = 15#4 then .unpredN15
    else if 31 < firstReg i + 3 * shape.inc then .cuD4 (opsAt i shape) else .ok (opsAt i shape) := by
  obtain ⟨sz, hsz, hrow⟩ := tableRow_eq_some_iff.mp h
  rw [tableShape_eq, Option.ite_none_left_eq_some] at hrow
  obtain ⟨hres, ⟨⟩⟩ := hrow
  rw [decodeResult_eq_decodeBlock, hsz, Option.elim_some, decodeBlock, if_neg hres]
  rfl

/-- A Decode block refuses the base only where it is register 15 (rule R91). -/
theorem rn_of_decodeResult_unpredN15 {i : Instr} (h : decodeResult i = .unpredN15) : i.fields.rn = 15#4 := by
  cases hrow : tableRow i with
  | none => rw [decodeResult_of_no_row hrow] at h; cases h
  | some shape =>
    by_contra hn
    rw [decodeResult_of_row hrow, if_neg hn] at h
    split at h <;> cases h

/-- The Decode block gives operands exactly for the executable encodings, and they are those of the row. -/
theorem decodeResult_ok_iff {i : Instr} {ops : Ops} :
    decodeResult i = .ok ops ↔ ∃ shape, Executable i shape ∧ ops = opsAt i shape := by
  constructor
  · intro h
    cases hrow : tableRow i with
    | none => rw [decodeResult_of_no_row hrow] at h; cases h
    | some shape =>
      rw [decodeResult_of_row hrow] at h
      split at h
      · cases h
      split at h
      · cases h
      rename_i hn hd
      cases h
      exact ⟨shape, ⟨tableRow_eq_some_iff.mp hrow, hn, Nat.not_lt.mp hd⟩, rfl⟩
  · rintro ⟨shape, ⟨hrow, hn, hd⟩, rfl⟩
    rw [decodeResult_of_row (tableRow_eq_some_iff.mpr hrow), if_neg hn, if_neg (Nat.not_lt.mpr hd)]

/-- The Decode block finds `d4 > 31` exactly for the lists that run past D31, with the operands of the row. -/
theorem decodeResult_cuD4_iff {i : Instr} {ops : Ops} :
    decodeResult i = .cuD4 ops ↔ ∃ shape, ListPastEnd i shape ∧ ops = opsAt i shape := by
  constructor
  · intro h
    cases hrow : tableRow i with
    | none => rw [decodeResult_of_no_row hrow] at h; cases h
    | some shape =>
      rw [decodeResult_of_row hrow] at h
      split at h
      · cases h
      split at h
      · rename_i hn hd
        cases h
        exact ⟨shape, ⟨tableRow_eq_some_iff.mp hrow, hn, hd⟩, rfl⟩
      · cases h
  · rintro ⟨shape, ⟨hrow, hn, hd⟩, rfl⟩
    rw [decodeResult_of_row (tableRow_eq_some_iff.mpr hrow), if_neg hn, if_pos hd]

/-! ## Where the Operation refuses -/

theorem storeStructure_not_refused (iset : ISet) (ops : Ops) (s : State) (reason : Refusal) :
    storeStructure iset ops s ≠ .refused reason := by
  unfold storeStructure
  split
  · exact nofun
  · exact raise_not_refused _ _ _
  · exact nofun

theorem unknownList_not_refused (iset : ISet) (ops : Ops) (s : State) (reason : Refusal) :
    unknownList iset ops s ≠ .refused reason := by
  unfold unknownList
  dsimp only
  split
  · exact nofun
  · exact raise_not_refused _ _ _
  · exact raise_not_refused _ _ _

/-- The enable check never refuses: a refusal is that of what follows it, with the unit enabled. -/
theorem whenEnabled_refused {word : Word} {s : State} {k : State → Out} {reason : Refusal}
    (h : whenEnabled word s k = .refused reason) : s.advSimdCheck = .enabled ∧ k s = .refused reason := by
  unfold whenEnabled at h
  split at h
  · exact absurd h (raise_not_refused _ _ _)
  · exact absurd h (raise_not_refused _ _ _)
  · rename_i hen
    exact ⟨hen, h⟩

/-- The three refusals of step 9 of rule R150. -/
theorem storeChecked_refused {iset : ISet} {ops : Ops} {s : State} {reason : Refusal}
    (h : storeChecked iset ops s = .refused reason) :
    (reason = .bigEndianData ∧ s.launch.bigEndianData = true) ∨
    (reason = .addressWrap ∧ 2 ^ 32 < (s.readGpr ops.n).toNat + 4 * ops.ebytes) ∨
    (reason = .storeIntoProgramText ∧ s.meetsText (s.readGpr ops.n) (4 * ops.ebytes) = true) := by
  unfold storeChecked at h
  dsimp only at h
  split at h
  · exact absurd h (raise_not_refused _ _ _)
  split at h
  · rename_i hbig
    cases h
    exact .inl ⟨rfl, hbig⟩
  split at h
  · rename_i hwrap
    cases h
    exact .inr (.inl ⟨rfl, hwrap⟩)
  split at h
  · rename_i htext
    cases h
    exact .inr (.inr ⟨rfl, htext⟩)
  · exact absurd h (storeStructure_not_refused _ _ _ _)

/-- `d4 > 31` is refused only under `CU_d4 = Refuse` (rule R92). -/
theorem registerListPastEnd_refused {iset : ISet} {word : Word} {ops : Ops} {s : State} {reason : Refusal}
    (h : registerListPastEnd iset word ops s = .refused reason) :
    reason = .constrainedUnpredictableRegisterList ∧ s.launch.cuD4 = .refuse := by
  unfold registerListPastEnd at h
  split at h
  · rename_i hcu
    cases h
    exact ⟨rfl, hcu⟩
  · exact absurd h (raise_not_refused _ _ _)
  · cases h
  · exact absurd (whenEnabled_refused h).2 (unknownList_not_refused _ _ _ _)

/-- The cases in which the Operation refuses: the condition passes and the base is register 15, the list runs past D31, or the
checks before the stores refuse; or the condition fails on a word that decodes to no operands (rule R188). -/
theorem execute_refused {iset : ISet} {word : Word} {r : DecodeResult} {s : State} {reason : Refusal}
    (h : execute iset word r s = .refused reason) :
    (s.conditionPassed iset = true ∧ r = .unpredN15 ∧ reason = .unpredictableBaseIsPC) ∨
    (s.conditionPassed iset = true ∧ ∃ ops, r = .cuD4 ops ∧ reason = .constrainedUnpredictableRegisterList ∧
      s.launch.cuD4 = .refuse) ∨
    (s.conditionPassed iset = true ∧ ∃ ops, r = .ok ops ∧ s.advSimdCheck = .enabled ∧ storeChecked iset ops s = .refused reason) ∨
    (s.conditionPassed iset = false ∧ (∀ ops, r ≠ .ok ops) ∧ reason = .condFailedOnBadEncoding) := by
  unfold execute at h
  split at h
  · rename_i hc
    split at h
    · exact absurd h (raise_not_refused _ _ _)
    · cases h
      exact .inl ⟨hc, rfl, rfl⟩
    · rename_i ops
      exact .inr (.inl ⟨hc, ops, rfl, registerListPastEnd_refused h⟩)
    · rename_i ops
      exact .inr (.inr (.inl ⟨hc, ops, rfl, whenEnabled_refused h⟩))
  · rename_i hc
    have hfail : s.conditionPassed iset = false := by simpa using hc
    refine .inr (.inr (.inr ⟨hfail, ?_⟩))
    split at h
    · cases h
    all_goals
      cases h
      exact ⟨nofun, rfl⟩

/-- Only a T32 instruction can have a failing condition (rule R151). -/
theorem iset_of_condition_failed {s : State} {iset : ISet} (h : s.conditionPassed iset = false) : iset = .t32 := by
  cases iset with
  | a32 => cases h
  | t32 => rfl

/-! ## The obligations -/

/-- Settles O45, by the laws of byte memories. -/
theorem memoryWriteReadsBack : Obligations.MemoryWriteReadsBack := fun m a v ha =>
  ⟨Memory.read_write_same m a v, fun _ h => Memory.read_write_other m h.symm v, fun hm => Memory.wf_write hm ha v⟩

/-- Settles O9, by `decodeWord_notInScope`: such a word does not decode in the current instruction set, in either byte order of rule R51. -/
theorem wordOutsidePatternsIsRefused : Obligations.WordOutsidePatternsIsRefused := by
  intro s b0 b1 b2 b3 ha hf hw
  have hout : wordOfBytes s.launch.iset b0 b1 b2 b3 &&& 0xFFB00300#32 ≠ fixedBits s.launch.iset := by
    rcases hw with ⟨hi, hw⟩ | ⟨hi, hw⟩ <;> rw [hi] <;> exact hw
  have hd : decode s.launch.iset [b0, b1, b2, b3] = .error .notInScope := by
    rw [decode, decodeWord_notInScope hout]
    rfl
  exact step_of_decode_error ha hf hd

/-- Settles O35, by `execute_refused`: each refusal of the Operation, with the Decode result it comes from read as a row of the table. -/
theorem execRefusesOnlyForTheListedReasons : Obligations.ExecRefusesOnlyForTheListedReasons := by
  intro i s reason h
  rw [exec_eq_execute] at h
  rcases execute_refused h with ⟨-, hr, rfl⟩ | ⟨-, ops, hr, rfl, hcu⟩ | ⟨-, ops, hr, -, hstore⟩ | ⟨hfail, hr, rfl⟩
  · exact .inl ⟨rfl, rn_of_decodeResult_unpredN15 hr⟩
  · obtain ⟨shape, hlist, -⟩ := decodeResult_cuD4_iff.mp hr
    exact .inr (.inl ⟨rfl, ⟨shape, hlist⟩, hcu⟩)
  · obtain ⟨shape, hexec, rfl⟩ := decodeResult_ok_iff.mp hr
    rcases storeChecked_refused hstore with ⟨rfl, hbig⟩ | ⟨rfl, hwrap⟩ | ⟨rfl, htext⟩
    · exact .inr (.inr (.inl ⟨rfl, hbig⟩))
    · exact .inr (.inr (.inr (.inl ⟨rfl, shape, hexec, hwrap⟩)))
    · obtain ⟨a, hlo, hhi, hread⟩ := State.meetsText_iff.mp htext
      exact .inr (.inr (.inr (.inr (.inl ⟨rfl, shape, a, hexec, hlo, hhi, hread⟩))))
  · have ht32 := iset_of_condition_failed hfail
    refine .inr (.inr (.inr (.inr (.inr ⟨rfl, ht32, ht32 ▸ hfail, ?_⟩))))
    rintro ⟨shape, hexec⟩
    exact hr _ (decodeResult_ok_iff.mpr ⟨shape, hexec, rfl⟩)

end Sys2Proof.Machine

/-! SUPPORT. Proofs of the family 10_state.md: the invariant. First the rules they need. -/

namespace Sys2Proof.Machine

/-! ## The parts of the invariant -/

theorem State.inv_iff {s : State} : s.inv = true ↔
    Memory.wf s.mem = true ∧ Memory.wf s.launch.text = true ∧ s.memInLaunch = true ∧ s.pcAligned = true := by
  simp only [State.inv, Bool.and_eq_true, and_assoc]

/-- No region of `LaunchMemory` has the address (rule R61). -/
def State.OutsideLaunch (s : State) (x : Nat) : Prop := (s.launch.launchMemory.any fun r => Region.has r x) = false

theorem State.outsideLaunch_congr {s t : State} (h : t.launch = s.launch) (x : Nat) : t.OutsideLaunch x ↔ s.OutsideLaunch x := by
  rw [State.OutsideLaunch, State.OutsideLaunch, h]

/-- Data memory lies in `LaunchMemory` exactly if it holds no value at any address outside. -/
theorem State.memInLaunch_iff {s : State} : s.memInLaunch = true ↔ ∀ x, s.OutsideLaunch x → Memory.read s.mem x = none := by
  rw [State.memInLaunch, List.all_eq_true]
  constructor
  · intro h x hx
    by_contra hread
    obtain ⟨c, hc, rfl⟩ := Memory.isSome_read_iff.mp (Option.isSome_iff_ne_none.mpr hread)
    exact Bool.false_ne_true (hx.symm.trans (h c hc))
  · intro h c hc
    by_contra hout
    have hread := Memory.isSome_read_iff.mpr ⟨c, hc, rfl⟩
    rw [h c.1 (Bool.eq_false_iff.mpr hout)] at hread
    cases hread

/-- An address in `LaunchMemory` is not one outside. -/
theorem State.toNat_ne_of_inLaunchMemory {s : State} {a : Word} (ha : s.inLaunchMemory a = true) {x : Nat}
    (hx : s.OutsideLaunch x) : a.toNat ≠ x := by
  rintro rfl
  exact Bool.false_ne_true (hx.symm.trans ha)

/-- `pc + 4` keeps the alignment of either instruction set, also where it wraps (rule R25). -/
theorem State.retire_pcAligned {s : State} (h : s.pcAligned = true) (iset : ISet) : (s.retire iset).pcAligned = true := by
  simp only [State.pcAligned, beq_iff_eq, State.retire_pc, State.retire_launch, BitVec.toNat_add, BitVec.toNat_ofNat] at h ⊢
  cases hi : s.launch.iset <;> simp only [hi, pcAlignment] at h ⊢ <;> omega

/-! ## What keeps the invariant -/

/-- A change of the state that leaves alone what the invariant speaks of: the pc, the launch parameters, the canonical form of data
memory, and what data memory holds outside `LaunchMemory`. -/
structure KeepsInvariant (s t : State) : Prop where
  pc      : t.pc = s.pc
  launch  : t.launch = s.launch
  wf      : Memory.wf s.mem = true → Memory.wf t.mem = true
  outside : ∀ x, s.OutsideLaunch x → Memory.read t.mem x = Memory.read s.mem x

theorem KeepsInvariant.inv {s t : State} (h : KeepsInvariant s t) (hs : s.inv = true) : t.inv = true := by
  obtain ⟨hwf, htext, hmem, hpc⟩ := State.inv_iff.mp hs
  refine State.inv_iff.mpr ⟨h.wf hwf, h.launch ▸ htext, State.memInLaunch_iff.mpr fun x hx => ?_, ?_⟩
  · have hout := (State.outsideLaunch_congr h.launch x).mp hx
    rw [h.outside x hout, State.memInLaunch_iff.mp hmem x hout]
  · rwa [State.pcAligned, h.pc, h.launch]

theorem State.retire_inv {s : State} (hs : s.inv = true) (iset : ISet) : (s.retire iset).inv = true := by
  obtain ⟨hwf, htext, hmem, hpc⟩ := State.inv_iff.mp hs
  refine State.inv_iff.mpr ⟨by rwa [State.retire_mem], by rwa [State.retire_launch], ?_, State.retire_pcAligned hpc iset⟩
  rwa [State.memInLaunch, State.retire_mem, State.retire_launch]

/-- The stores of admitted elements change no byte outside `LaunchMemory`. -/
theorem writeElements_read_outside {s : State} {m : Memory} {es : List Element} (h : AllAdmitted s m es) {x : Nat}
    (hx : s.OutsideLaunch x) : Memory.read (writeElements m es) x = Memory.read m x :=
  writeElements_read_other m fun w hw => State.toNat_ne_of_inLaunchMemory (h.inLaunch w hw) hx

/-- A completed store, before it retires, keeps the invariant (rules R58, R161). -/
theorem keepsInvariant_of_admitted {ops : Ops} {s : State} {es : List Element} (h : AllAdmitted s s.mem es) :
    KeepsInvariant s (ops.writeback (s.withMem (writeElements s.mem es))) where
  pc      := by simp
  launch  := by simp
  wf      := fun hwf => by simpa using writeElements_wf es hwf
  outside := fun x hx => by simpa using writeElements_read_outside h hx

/-- A free byte changes nothing outside `LaunchMemory`, whatever its address (log 13). -/
theorem State.unknownByte_read_outside (s : State) (a : Word) {x : Nat}
    (hx : s.OutsideLaunch x) :
    Memory.read (s.unknownByte a).mem x = Memory.read s.mem x := by
  by_cases ha : s.inLaunchMemory a = true
  · exact State.unknownByte_read_other s (State.toNat_ne_of_inLaunchMemory ha hx)
  · rw [State.unknownByte, if_neg ha]

theorem State.unknownBytes_read_outside (s : State) (l : List Word) {x : Nat}
    (hx : s.OutsideLaunch x) :
    Memory.read (s.unknownBytes l).mem x = Memory.read s.mem x := by
  induction l generalizing s with
  | nil => rfl
  | cons a rest ih =>
    have hrest := (State.outsideLaunch_congr (State.unknownByte_same s a).launch x).mpr hx
    rw [State.unknownBytes, ih _ hrest, State.unknownByte_read_outside s a hx]

/-- The `Unknown` row, before it retires, keeps the invariant (rule R154; log 13). -/
theorem keepsInvariant_unknownRow (ops : Ops) (s : State) :
    KeepsInvariant s (ops.unknownBase (ops.unknownStorage s).countDraw) where
  pc      := by simpa using (ops.unknownStorage_same s).pc
  launch  := by simpa using (ops.unknownStorage_same s).launch
  wf      := fun hwf => by simpa using ops.unknownStorage_wf hwf
  outside := fun x hx => by
    rw [Ops.unknownBase_mem, State.countDraw_mem, Ops.unknownStorage, (State.unknownDregs_same _ _).mem]
    exact State.unknownBytes_read_outside s _ hx

/-! ## A step that answers a next state -/

/-- Such a step fetched at an aligned pc, and answers what the meaning of the instruction it decoded answers. -/
theorem step_next {s t : State} (h : step s = .next t) : s.pcAligned = true ∧
    ∃ bytes i rest, s.fetchBytes = some bytes ∧ decode s.launch.iset bytes = .ok (i, rest) ∧ exec i s = .next t := by
  unfold step at h
  split at h
  · rename_i hpc
    split at h
    · cases h
    · rename_i bytes hfetch
      split at h
      · cases h
      · rename_i i rest hdec
        exact ⟨hpc, bytes, i, rest, hfetch, hdec, h⟩
  · cases h

/-- Every instruction that completes keeps the invariant. -/
theorem exec_next_inv {i : Instr} {s t : State} (hs : s.inv = true) (h : exec i s = .next t) : t.inv = true := by
  rw [exec_eq_execute] at h
  rcases execute_next h with ⟨-, -, rfl⟩ | ⟨-, ops, -, -, hdone⟩ | ⟨-, -, -, rfl⟩ | ⟨-, ops, -, -, -, rfl⟩
  · exact State.retire_inv hs _
  · rw [hdone.result]
    exact State.retire_inv ((keepsInvariant_of_admitted hdone.admitted).inv hs) _
  · exact State.retire_inv hs _
  · exact State.retire_inv ((keepsInvariant_unknownRow ops s).inv hs) _

/-- Settles O42, by `step_next` and `exec_next_inv`: each of the four ways to complete keeps the invariant before it retires, and
retiring keeps it. -/
theorem stepKeepsInvariant : Obligations.StepKeepsInvariant := by
  intro s t hs h
  obtain ⟨-, -, i, -, -, -, hexec⟩ := step_next h
  exact exec_next_inv hs hexec

end Sys2Proof.Machine

/-! SUPPORT. Proofs of the family 20_memory.md: the fetch, alignment, and the element stores that do not all succeed. First the rules
they need. -/

namespace Sys2Proof

/-! ## Placed words -/

/-- A well-formed instruction is the row of its own fields (rule R88 steps 2 and 3). -/
theorem rowOf_fields {i : Instr} (h : i.wellFormed = true) : rowOf i.iset i.fields = i := by
  cases i with
  | a1Nowb dd rn ia => exact Laws.RowOfFields.a1Nowb dd rn ia h
  | a1Posti dd rn ia => exact Laws.RowOfFields.a1Posti dd rn ia h
  | a1Postr dd rn ia rm => exact Laws.RowOfFields.a1Postr dd rn ia rm h
  | a2Nowb dd rn ia => exact Laws.RowOfFields.a2Nowb dd rn ia h
  | a2Posti dd rn ia => exact Laws.RowOfFields.a2Posti dd rn ia h
  | a2Postr dd rn ia rm => exact Laws.RowOfFields.a2Postr dd rn ia rm h
  | a3Nowb dd rn ia => exact Laws.RowOfFields.a3Nowb dd rn ia h
  | a3Posti dd rn ia => exact Laws.RowOfFields.a3Posti dd rn ia h
  | a3Postr dd rn ia rm => exact Laws.RowOfFields.a3Postr dd rn ia rm h
  | a32Size11 dd rn ia rm => exact Laws.RowOfFields.a32Size11 dd rn ia rm h
  | t1Nowb dd rn ia => exact Laws.RowOfFields.t1Nowb dd rn ia h
  | t1Posti dd rn ia => exact Laws.RowOfFields.t1Posti dd rn ia h
  | t1Postr dd rn ia rm => exact Laws.RowOfFields.t1Postr dd rn ia rm h
  | t2Nowb dd rn ia => exact Laws.RowOfFields.t2Nowb dd rn ia h
  | t2Posti dd rn ia => exact Laws.RowOfFields.t2Posti dd rn ia h
  | t2Postr dd rn ia rm => exact Laws.RowOfFields.t2Postr dd rn ia rm h
  | t3Nowb dd rn ia => exact Laws.RowOfFields.t3Nowb dd rn ia h
  | t3Posti dd rn ia => exact Laws.RowOfFields.t3Posti dd rn ia h
  | t3Postr dd rn ia rm => exact Laws.RowOfFields.t3Postr dd rn ia rm h
  | t32Size11 dd rn ia rm => exact Laws.RowOfFields.t32Size11 dd rn ia rm h

/-- The word of a well-formed instruction decodes to it, in its own instruction set. -/
theorem decodeWord_encode {i : Instr} (h : i.wellFormed = true) : decodeWord i.iset (encode i) = .ok i := by
  rw [encode, decodeWord, if_pos (fixedBitsMatch_layOut _ _), fieldsOf_layOut, rowOf_fields h]

/-- The instruction set of a table word is that of its instruction: the fixed bits tell the two sets apart. -/
theorem isetOfTableWord_encode (i : Instr) : isetOfTableWord (encode i) = i.iset := by
  have hmatch : fixedBitsMatch .t32 (encode i) = true ↔ Machine.fixedBits i.iset = Machine.fixedBits .t32 := by
    rw [fixedBitsMatch_iff, encode, layOut_and_mask]
  rw [isetOfTableWord]
  cases hi : i.iset with
  | a32 => rw [if_neg fun h => absurd (hmatch.mp h) (by rw [hi]; decide)]
  | t32 => rw [if_pos (hmatch.mpr (by rw [hi]))]

/-- A word is its own table word of 32 bits. -/
theorem tableWord_toNat (w : Word) : tableWord 32 w.toNat = w := by
  rw [tableWord, Nat.mod_eq_of_lt w.isLt, BitVec.ofNat_toNat, BitVec.setWidth_eq]

end Sys2Proof

namespace Sys2Proof.Machine

/-! ## The pc and the fetch -/

/-- Alignment of the pc in the words of rule R25. -/
theorem State.pcAligned_iff {s : State} : s.pcAligned = true ↔
    s.launch.iset = .a32 ∧ s.pc.toNat % 4 = 0 ∨ s.launch.iset = .t32 ∧ s.pc.toNat % 2 = 0 := by
  rw [State.pcAligned, beq_iff_eq]
  cases s.launch.iset <;> simp [pcAlignment]

/-- A mask with its `n` low bits clear makes a multiple of `2^n`. -/
theorem toNat_and_mod_of_mask {m : Word} {n : Nat} (h : m.toNat % 2 ^ n = 0) (w : Word) : (w &&& m).toNat % 2 ^ n = 0 := by
  rw [BitVec.toNat_and, Nat.and_mod_two_pow, h, Nat.and_zero]

/-- `alignPc` clears the bits that the alignment asks to be zero. -/
theorem alignPc_mod (iset : ISet) (pc : Word) : (alignPc iset pc).toNat % pcAlignment iset = 0 := by
  cases iset with
  | a32 => exact toNat_and_mod_of_mask (n := 2) rfl pc
  | t32 => exact toNat_and_mod_of_mask (n := 1) rfl pc

/-- Bytes written read back, also where their addresses wrap (rule R10), as long as no address comes twice. -/
theorem Memory.readBytes_writeBytes {bs : List Byte} (hlen : bs.length ≤ 2 ^ 32) (m : Memory) (addr : Word) :
    Memory.readBytes (Memory.writeBytes m addr bs) addr bs.length = some bs := by
  induction bs generalizing m addr with
  | nil => rfl
  | cons b bs ih =>
    rw [List.length_cons] at hlen
    have hhead : Memory.read (Memory.writeBytes m addr (b :: bs)) addr.toNat = some b := by
      rw [Memory.writeBytes, Memory.read_writeBytes_other, Memory.read_write_same]
      intro w hw
      obtain ⟨c, hc, rfl⟩ := mem_addressRange.mp hw
      simp only [BitVec.toNat_add, BitVec.toNat_ofNat]
      omega
    rw [List.length_cons, Memory.readBytes, hhead, Memory.writeBytes, ih (Nat.le_of_succ_le hlen)]

/-- A misaligned pc has no step (decision D12). -/
theorem step_of_misaligned {s : State} (h : s.pcAligned = false) : step s = .fault (.misalignedPc s.pc) := by
  rw [step, if_neg (Bool.eq_false_iff.mp h)]

/-- A fetch that finds a byte outside the program text stops (log 12). -/
theorem step_of_fetch_none {s : State} (ha : s.pcAligned = true) (hf : s.fetchBytes = none) :
    step s = .fault (.fetchOutsideText s.pc) := by
  rw [step, if_pos ha, hf]

/-- A step is the meaning of the instruction that the fetched bytes decode to. -/
theorem step_of_decode_ok {s : State} {bytes rest : List Byte} {i : Instr} (ha : s.pcAligned = true)
    (hf : s.fetchBytes = some bytes) (hd : decode s.launch.iset bytes = .ok (i, rest)) : step s = exec i s := by
  rw [step, if_pos ha, hf]
  dsimp only
  rw [hd]

/-- Where `withFetchWord` puts the word of an instruction: its bytes at the aligned pc, in its own instruction set. -/
theorem State.withFetchWord_encode (s : State) (i : Instr) : s.withFetchWord 32 (encode i).toNat =
    { s with
      pc := alignPc i.iset s.pc
      launch := { s.launch with
        iset := i.iset, text := Memory.writeBytes s.launch.text (alignPc i.iset s.pc) (encodeBytes i) } } := by
  rw [State.withFetchWord, State.placeWord, tableWord_toNat, isetOfTableWord_encode]
  rfl

theorem encodeBytes_length (i : Instr) : (encodeBytes i).length = 4 := by
  rw [encodeBytes]
  cases i.iset <;> rfl

/-- The bytes fetched after an instruction's word is placed are the instruction's bytes. -/
theorem State.fetchBytes_withFetchWord_encode (s : State) (i : Instr) :
    (s.withFetchWord 32 (encode i).toNat).fetchBytes = some (encodeBytes i) := by
  have hlen := encodeBytes_length i
  rw [State.withFetchWord_encode, State.fetchBytes, ← hlen]
  exact Memory.readBytes_writeBytes (by omega) _ _

/-! ## The Operation on an executable encoding -/

/-- An executable encoding whose condition passes with the unit enabled goes on to the checks before the stores. -/
theorem exec_eq_storeChecked {i : Instr} {shape : Shape} {s : State} (hexec : Executable i shape)
    (hcond : s.conditionPassed i.iset = true) (hunit : s.advSimdCheck = .enabled) :
    exec i s = storeChecked i.iset (opsAt i shape) s := by
  rw [exec_eq_execute, decodeResult_ok_iff.mpr ⟨shape, hexec, rfl⟩, execute, if_pos hcond, whenEnabled, hunit]

/-- The alignment test in the words of rules R52 and R53. -/
theorem opsAt_misaligned_eq_false_iff {i : Instr} {shape : Shape} {s : State} {address : Word} :
    (opsAt i shape).misaligned s address = false ↔
    address.toNat % shape.alignment = 0 ∧ (s.launch.strictElementAlign = false ∨ address.toNat % shape.ebytes = 0) := by
  simp only [Ops.misaligned, opsAt, Bool.or_eq_false_iff, Bool.and_eq_false_iff, bne_eq_false_iff_eq]

/-- The descriptor of rule R157, as the statements write it. -/
theorem State.accDesc_eq (s : State) : s.accDesc = ⟨.store, .asimd, false, false, decide (s.el ≠ .el0)⟩ := by
  rw [State.accDesc]
  cases s.el <;> rfl

/-- The alignment test comes first of the checks before the stores (rule R158). -/
theorem storeChecked_of_misaligned {iset : ISet} {ops : Ops} {s : State} (h : ops.misaligned s (s.readGpr ops.n) = true) :
    storeChecked iset ops s = .fault (.dataAbort (.alignmentFault s.accDesc ((s.readGpr ops.n).setWidth 64)) s) := by
  rw [storeChecked, if_pos h]
  rfl

/-- A structure that passes the checks comes to the four stores. -/
theorem storeChecked_of_passesChecks {iset : ISet} {i : Instr} {shape : Shape} {s : State}
    (h : PassesChecks s (baseAddress i s) shape) :
    storeChecked iset (opsAt i shape) s = storeStructure iset (opsAt i shape) s := by
  have halign : ¬ (opsAt i shape).misaligned s (s.readGpr (opsAt i shape).n) = true :=
    Bool.eq_false_iff.mp (opsAt_misaligned_eq_false_iff.mpr ⟨h.aligned, h.elementAligned⟩)
  have hendian : ¬ s.launch.bigEndianData = true := Bool.eq_false_iff.mp h.littleEndian
  have hwrap : ¬ 2 ^ 32 < (s.readGpr (opsAt i shape).n).toNat + 4 * (opsAt i shape).ebytes := Nat.not_lt.mpr h.noWrap
  have htext : ¬ s.meetsText (s.readGpr (opsAt i shape).n) (4 * (opsAt i shape).ebytes) = true := by
    intro hmeets
    obtain ⟨a, hlo, hhi, hread⟩ := State.meetsText_iff.mp hmeets
    rw [h.outsideText a hlo hhi] at hread
    cases hread
  rw [storeChecked, if_neg halign, if_neg hendian, if_neg hwrap, if_neg htext]

/-- An executable encoding that passes every test comes to the four stores. -/
theorem exec_eq_storeStructure {i : Instr} {shape : Shape} {s : State} (hexec : Executable i shape)
    (hcond : s.conditionPassed i.iset = true) (hunit : s.advSimdCheck = .enabled) (hchecks : PassesChecks s (baseAddress i s) shape) :
    exec i s = storeStructure i.iset (opsAt i shape) s := by
  rw [exec_eq_storeChecked hexec hcond hunit, storeChecked_of_passesChecks hchecks]

theorem opsAt_matches (i : Instr) (shape : Shape) : (opsAt i shape).Matches shape := ⟨rfl, rfl, rfl⟩

/-! ## Four stores that succeed -/

/-- Where every element is admitted, the four stores leave the whole structure in memory (rules R159, R160). -/
theorem storeStructure_of_admitted {iset : ISet} {ops : Ops} {shape : Shape} (h : ops.Matches shape) {s : State}
    (hadm : ∀ k, k < 4 → ElementAdmitted s (s.readGpr ops.n) shape ops.d k) :
    storeStructure iset ops s =
      .next ((ops.writeback (s.withMem (storedPrefix s (s.readGpr ops.n) shape ops.d (4 * shape.ebytes)))).retire iset) := by
  rw [storeStructure, Ops.elements, storeElements_of_admitted (allAdmitted_first h hadm), writeElements_first h]

/-- The memory with the whole structure stored, as rule R165 describes it. -/
theorem structureStored_of_mem {s t : State} {address : Word} {shape : Shape} {d : Nat}
    (hmem : t.mem = storedPrefix s address shape d (4 * shape.ebytes)) (hwrap : address.toNat + 4 * shape.ebytes ≤ 2 ^ 32) :
    StructureStored s t address shape d where
  stored := fun b hb => by rw [hmem, storedPrefix_read_at s address shape d hwrap hb]
  others := fun a ha => by
    rw [hmem]
    refine storedPrefix_read_other s address shape d _ fun b hb => ?_
    rw [BitVec.toNat_add, BitVec.toNat_ofNat]
    omega

/-! ## A store that does not succeed -/

/-- Admitted elements at the front are stored, and the rest is stored after them. -/
theorem storeElements_append {s : State} {pre : List Element} {m : Memory} (h : AllAdmitted s m pre) (touched : List Word)
    (es : List Element) : storeElements s touched m (pre ++ es) =
      storeElements s (touched ++ touchedBy pre) (writeElements m pre) es := by
  induction pre generalizing touched m with
  | nil => simp [touchedBy, writeElements]
  | cons e rest ih =>
    have hfind : (addressRange e.addr e.bytes.length).find? (fun a => !s.inLaunchMemory a) = none :=
      List.find?_eq_none.mpr fun a ha => by simp [h.1.launch a ha]
    rw [List.cons_append, storeElements, h.1.admits, hfind]
    simp only [ih h.2, writeElements, touchedBy, List.flatMap_cons, List.append_assoc]

/-- The elements before number `k`, element `k`, and those after it. -/
theorem Ops.elements_split (ops : Ops) (s : State) (address : Word) {k : Nat} (hk : k < 4) :
    ∃ rest, ops.elements s address = (List.range k).map (ops.element s address) ++ ops.element s address k :: rest := by
  obtain ⟨n, hn⟩ : ∃ n, 4 = k + 1 + n := Nat.exists_eq_add_of_le hk
  refine ⟨((List.range n).map (k + 1 + ·)).map (ops.element s address), ?_⟩
  rw [Ops.elements, hn, List.range_add, List.range_succ]
  simp

/-- Where the elements before number `k` are admitted, the stores come to element `k` with those before it in memory. -/
theorem storeElements_from_element {ops : Ops} {shape : Shape} (h : ops.Matches shape) {s : State} {address : Word} {k : Nat}
    (hk : k < 4) (hadm : ∀ j, j < k → ElementAdmitted s address shape ops.d j) :
    ∃ rest, storeElements s [] s.mem (ops.elements s address) =
      storeElements s (touchedBy ((List.range k).map (ops.element s address)))
        (storedPrefix s address shape ops.d (k * shape.ebytes)) (ops.element s address k :: rest) := by
  obtain ⟨rest, hsplit⟩ := ops.elements_split s address hk
  exact ⟨rest, by rw [hsplit, storeElements_append (allAdmitted_first h hadm), writeElements_first h, List.nil_append]⟩

/-- What the stores ask `MemAdmit` of element `k` is what the statements ask. -/
theorem memAdmit_element {ops : Ops} {shape : Shape} (h : ops.Matches shape) (s : State) (address : Word) (k : Nat) :
    (s.withMem (storedPrefix s address shape ops.d (k * shape.ebytes))).memAdmit s.accDesc (ops.element s address k).addr
      (ops.element s address k).bytes.length = admitAnswer s address shape ops.d k := by
  rw [Ops.element_length, h.ebytes, Ops.element, h.ebytes]
  rfl

/-- The byte addresses of element `k`. -/
theorem mem_addressRange_element {ops : Ops} {shape : Shape} (h : ops.Matches shape) {s : State} {address a : Word} {k : Nat} :
    a ∈ addressRange (ops.element s address k).addr (ops.element s address k).bytes.length ↔
      ∃ j, j < shape.ebytes ∧ a = address + BitVec.ofNat 32 (k * shape.ebytes + j) := by
  rw [Ops.element_length, h.ebytes, mem_addressRange]
  simp only [Ops.element, h.ebytes, BitVec.ofNat_add, BitVec.add_assoc]

/-- The elements 0 to `k - 1` touch the first `k*ebytes` bytes of the structure and no others. -/
theorem toNat_of_mem_touchedBy_first {ops : Ops} {shape : Shape} (h : ops.Matches shape) {s : State} {address w : Word} {k : Nat}
    (hwrap : address.toNat + k * shape.ebytes ≤ 2 ^ 32) (hw : w ∈ touchedBy ((List.range k).map (ops.element s address))) :
    address.toNat ≤ w.toNat ∧ w.toNat < address.toNat + k * shape.ebytes := by
  obtain ⟨e, he, hwe⟩ := List.mem_flatMap.mp hw
  obtain ⟨j, hj, rfl⟩ := List.mem_map.mp he
  obtain ⟨b, hb, rfl⟩ := (mem_addressRange_element h).mp hwe
  have hbyte : j * shape.ebytes + b < k * shape.ebytes :=
    calc j * shape.ebytes + b < (j + 1) * shape.ebytes := by rw [Nat.succ_mul]; omega
      _ ≤ k * shape.ebytes := Nat.mul_le_mul_right _ (List.mem_range.mp hj)
  rw [BitVec.toNat_add, BitVec.toNat_ofNat]
  omega

/-- The first element that `MemAdmit` aborts ends the stores with the raise, the bytes of it and of those before it UNKNOWN
(rules R58, R183). -/
theorem storeStructure_of_abort {iset : ISet} {ops : Ops} {shape : Shape} (h : ops.Matches shape) {s : State} {k : Nat}
    {info : AbortInfo} (hk : k < 4) (hadm : ∀ j, j < k → ElementAdmitted s (s.readGpr ops.n) shape ops.d j)
    (habort : admitAnswer s (s.readGpr ops.n) shape ops.d k = some info) :
    storeStructure iset ops s = .fault (.dataAbort (.other info)
      (s.unknownBytes (touchedBy ((List.range (k + 1)).map (ops.element s (s.readGpr ops.n)))))) := by
  obtain ⟨rest, hstores⟩ := storeElements_from_element h hk hadm
  rw [storeStructure, hstores, storeElements, memAdmit_element h, habort]
  simp only [List.range_succ, List.map_append, touchedBy, List.flatMap_append, List.map_cons, List.map_nil, List.flatMap_cons,
    List.flatMap_nil, List.append_nil]
  rfl

/-- An admitted element with a byte outside `LaunchMemory` ends the stores, stuck at such a byte of it (rule R58). -/
theorem storeStructure_of_outsideLaunch {iset : ISet} {ops : Ops} {shape : Shape} (h : ops.Matches shape) {s : State} {k : Nat}
    (hk : k < 4) (hadm : ∀ j, j < k → ElementAdmitted s (s.readGpr ops.n) shape ops.d j)
    (hok : admitAnswer s (s.readGpr ops.n) shape ops.d k = none)
    (hout : ∃ j, j < shape.ebytes ∧ s.inLaunchMemory (s.readGpr ops.n + BitVec.ofNat 32 (k * shape.ebytes + j)) = false) :
    ∃ j, j < shape.ebytes ∧ s.inLaunchMemory (s.readGpr ops.n + BitVec.ofNat 32 (k * shape.ebytes + j)) = false ∧
      storeStructure iset ops s = .fault (.outsideLaunchMemory (s.readGpr ops.n + BitVec.ofNat 32 (k * shape.ebytes + j))) := by
  obtain ⟨rest, hstores⟩ := storeElements_from_element h hk hadm
  rw [storeStructure, hstores, storeElements, memAdmit_element h, hok]
  dsimp only
  cases hfind : (addressRange (ops.element s (s.readGpr ops.n) k).addr
      (ops.element s (s.readGpr ops.n) k).bytes.length).find? (fun a => !s.inLaunchMemory a) with
  | none =>
    obtain ⟨j, hj, hoj⟩ := hout
    have hin := List.find?_eq_none.mp hfind _ ((mem_addressRange_element h).mpr ⟨j, hj, rfl⟩)
    simp [hoj] at hin
  | some a =>
    obtain ⟨j, hj, rfl⟩ := (mem_addressRange_element h).mp (List.mem_of_find?_eq_some hfind)
    exact ⟨j, hj, by simpa using List.find?_some hfind, rfl⟩

/-! ## The obligations -/

/-- Settles O8, by `decodeWord_encode`: the bytes placed at the aligned pc are those the next fetch reads, and they decode to the
instruction. -/
theorem placedWordRunsNext : Obligations.PlacedWordRunsNext := by
  intro i s hwf
  have hiset : (s.withFetchWord 32 (encode i).toNat).launch.iset = i.iset := by rw [State.withFetchWord_encode]
  have haligned : (s.withFetchWord 32 (encode i).toNat).pcAligned = true := by
    rw [State.withFetchWord_encode, State.pcAligned, beq_iff_eq]
    exact alignPc_mod _ _
  have hdecode : decode i.iset (encodeBytes i) = .ok (i, []) := by
    have h := decode_bytesOfWord i.iset (encode i) []
    rwa [List.append_nil, decodeWord_encode hwf] at h
  exact ⟨hiset, step_of_decode_ok haligned (s.fetchBytes_withFetchWord_encode i) (hiset ▸ hdecode)⟩

/-- Settles O28: the element alignment is part of the alignment test that comes first, and is not tested where
`StrictElementAlign` is clear. -/
theorem strictElementAlignmentFaults : Obligations.StrictElementAlignmentFaults := by
  intro i shape s hexec hcond hunit halign hodd
  constructor
  · intro hstrict
    have hmis : (opsAt i shape).misaligned s (baseAddress i s) = true := by
      by_contra h
      rcases (opsAt_misaligned_eq_false_iff.mp (Bool.eq_false_iff.mpr h)).2 with hclear | heven
      · exact absurd (hstrict.symm.trans hclear) (by decide)
      · exact hodd heven
    rw [exec_eq_storeChecked hexec hcond hunit, storeChecked_of_misaligned hmis, State.accDesc_eq]
    rfl
  · intro _ hcan
    rw [exec_eq_storeStructure hexec hcond hunit hcan.checks, storeStructure_of_admitted (opsAt_matches i shape) hcan.admitted]
    refine ⟨_, rfl, structureStored_of_mem ?_ hcan.checks.noWrap⟩
    rw [State.retire_mem, Ops.writeback_mem, State.withMem_mem]
    rfl

/-- Settles O30, by `storeStructure_of_abort`: the draws of the aborted elements' bytes change nothing else. -/
theorem abortedElementEndsTheInstruction : Obligations.AbortedElementEndsTheInstruction := by
  intro i shape s k info hexec hcond hunit hchecks hk hadm habort
  have hm := opsAt_matches i shape
  have hwrap : (baseAddress i s).toNat + (k + 1) * shape.ebytes ≤ 2 ^ 32 :=
    (Nat.add_le_add_left (Nat.mul_le_mul_right _ hk) _).trans hchecks.noWrap
  have hsame := s.unknownBytes_same (touchedBy ((List.range (k + 1)).map ((opsAt i shape).element s (baseAddress i s))))
  refine ⟨_, (exec_eq_storeStructure hexec hcond hunit hchecks).trans (storeStructure_of_abort hm hk hadm habort),
    hsame.gpr, hsame.dreg, hsame.pc, hsame.condAnswers, ⟨hsame.el, hsame.dit, hsame.simd, hsame.launch⟩, fun a ha => ?_⟩
  refine State.unknownBytes_read_other s fun w hw => ?_
  have hrange := toNat_of_mem_touchedBy_first hm hwrap hw
  omega

/-- Settles O31, by `storeStructure_of_outsideLaunch`. -/
theorem storeOutsideLaunchMemoryIsStuck : Obligations.StoreOutsideLaunchMemoryIsStuck := by
  intro i shape s k hexec hcond hunit hchecks hk hadm hok hout
  rw [exec_eq_storeStructure hexec hcond hunit hchecks]
  exact storeStructure_of_outsideLaunch (opsAt_matches i shape) hk hadm hok hout

/-- Settles O10: the alignment of the pc is tested first, then whether the program text holds the four bytes. -/
theorem fetchWithoutStepIsStuck : Obligations.FetchWithoutStepIsStuck := by
  intro s
  constructor
  · intro hmis
    refine step_of_misaligned (Bool.eq_false_iff.mpr fun h => ?_)
    rcases State.pcAligned_iff.mp h with ⟨hi, h4⟩ | ⟨hi, h2⟩
    · simp [hi, h4] at hmis
    · simp [hi, h2] at hmis
  · exact fun haligned hbytes => step_of_fetch_none (State.pcAligned_iff.mpr haligned) hbytes

/-- Settles O18: each vector is one run of `step` from a state without variables. -/
theorem effectOfEverySizeOfStructure : Obligations.EffectOfEverySizeOfStructure :=
  ⟨⟨_, rfl, by decide, by decide⟩, ⟨_, rfl, by decide, by decide⟩, ⟨_, rfl, by decide, by decide⟩⟩

end Sys2Proof.Machine

/-! SUPPORT. Proofs of the family 30_encoding.md: decoding and encoding, the opcode table, the assembler, and the Decode blocks with
the three tests that come before the enable check. First the rules they need. -/

namespace Sys2Proof

/-! ## The row that fields select -/

theorem byForm_of_isIndexReg {rm : BitVec 4} (h : isIndexReg rm = true) (nowb posti postr : Instr) :
    byForm rm nowb posti postr = postr := by
  simp only [isIndexReg, Bool.and_eq_true, bne_iff_ne] at h
  rw [byForm, if_neg h.2, if_neg h.1]

/-- The three address forms that `Rm` selects, as the cases of a proof (rule R88 step 3). -/
theorem byForm_cases {P : Instr → Prop} {rm : BitVec 4} {nowb posti postr : Instr} (hnowb : rm = 15#4 → P nowb)
    (hposti : rm = 13#4 → P posti) (hpostr : isIndexReg rm = true → P postr) : P (byForm rm nowb posti postr) := by
  rw [byForm]
  split
  · exact hnowb ‹_›
  split
  · exact hposti ‹_›
  · exact hpostr (by simp [isIndexReg, *])

/-- An instruction is the row of its instruction set that some fields select. -/
structure IsRowOf (i : Instr) (iset : ISet) (f : Fields) : Prop where
  iset       : i.iset = iset
  fields     : i.fields = f
  wellFormed : i.wellFormed = true

/-- The decoder's row has the instruction set and the fields it was selected by, and is well-formed (rule R88 steps 2 and 3). -/
theorem isRowOf_rowOf (iset : ISet) (f : Fields) : IsRowOf (rowOf iset f) iset f := by
  obtain ⟨dd, rn, size, ia, rm⟩ := f
  have hsize : size = 0#2 ∨ size = 1#2 ∨ size = 2#2 ∨ size = 3#2 := by revert size; decide
  cases iset <;> rcases hsize with rfl | rfl | rfl | rfl
  case a32.inr.inr.inr => exact ⟨rfl, rfl, rfl⟩
  case t32.inr.inr.inr => exact ⟨rfl, rfl, rfl⟩
  all_goals
    refine byForm_cases (P := (IsRowOf · _ _)) ?_ ?_ ?_
    · rintro rfl
      exact ⟨rfl, rfl, rfl⟩
    · rintro rfl
      exact ⟨rfl, rfl, rfl⟩
    · exact fun hrm => ⟨rfl, rfl, hrm⟩

/-! ## The words that decode -/

theorem decodeWord_of_fixedBitsMatch {iset : ISet} {w : Word} (h : fixedBitsMatch iset w = true) :
    decodeWord iset w = .ok (rowOf iset (fieldsOf w)) := if_pos h

/-- The words that decode are the words of the well-formed instructions of the instruction set. -/
theorem decodeWord_ok_iff {iset : ISet} {w : Word} {i : Instr} :
    decodeWord iset w = .ok i ↔ encode i = w ∧ i.iset = iset ∧ i.wellFormed = true := by
  constructor
  · intro h
    rw [decodeWord] at h
    split at h
    · rename_i hm
      cases h
      have hrow := isRowOf_rowOf iset (fieldsOf w)
      exact ⟨by rw [encode, hrow.iset, hrow.fields, layOut_fieldsOf hm], hrow.iset, hrow.wellFormed⟩
    · cases h
  · rintro ⟨rfl, rfl, hwf⟩
    exact decodeWord_encode hwf

theorem fieldsOf_encode (i : Instr) : fieldsOf (encode i) = i.fields := fieldsOf_layOut _ _

/-! ## The opcode table -/

/-- Under the mask of a `nowb` or `posti` row a word keeps its fixed bits, `size` and `Rm`. -/
theorem layOut_and_mask_size_rm (iset : ISet) (f : Fields) :
    layOut iset f &&& 0xFFB00F0F#32 = layOut iset ⟨0#5, 0#4, f.size, 0#4, f.rm⟩ := by
  apply BitVec.eq_of_getLsbD_eq
  intro k hk
  interval_cases k <;> simp only [layOut, BitVec.getLsbD_and, BitVec.getLsbD_append] <;> simp

/-- Under the mask of a `postr` row or of a `size == '11'` pattern a word keeps its fixed bits and `size`. -/
theorem layOut_and_mask_size (iset : ISet) (f : Fields) :
    layOut iset f &&& 0xFFB00F00#32 = layOut iset ⟨0#5, 0#4, f.size, 0#4, 0#4⟩ := by
  apply BitVec.eq_of_getLsbD_eq
  intro k hk
  interval_cases k <;> simp only [layOut, BitVec.getLsbD_and, BitVec.getLsbD_append] <;> simp

/-- The rows as rules R88 and R89 print them: the match value is the laid-out word of the row's constants. -/
theorem row_mask_value (i : Instr) :
    (i.row.mask = 0xFFB00F0F#32 ∧ i.row.value = layOut i.iset ⟨0#5, 0#4, i.fields.size, 0#4, i.fields.rm⟩) ∨
    (i.row.mask = 0xFFB00F00#32 ∧ i.row.value = layOut i.iset ⟨0#5, 0#4, i.fields.size, 0#4, 0#4⟩) := by
  cases i
  case a1Nowb | a1Posti | a2Nowb | a2Posti | a3Nowb | a3Posti | t1Nowb | t1Posti | t2Nowb | t2Posti | t3Nowb | t3Posti =>
    refine .inl ⟨rfl, ?_⟩
    rw [Instr.row, Instr.iset, Instr.fields]
    dsimp only
    decide
  all_goals
    refine .inr ⟨rfl, ?_⟩
    rw [Instr.row, Instr.iset, Instr.fields]
    dsimp only
    decide

/-- The word of an instruction has the match value of its row under the mask of its row. -/
theorem encode_and_row_mask (i : Instr) : encode i &&& i.row.mask = i.row.value := by
  rcases row_mask_value i with ⟨hmask, hvalue⟩ | ⟨hmask, hvalue⟩
  · rw [hmask, hvalue, encode, layOut_and_mask_size_rm]
  · rw [hmask, hvalue, encode, layOut_and_mask_size]

theorem row_iset (i : Instr) : i.row.iset = i.iset := by cases i <;> rfl

/-- A row's test implies the fixed bits of its instruction set. -/
theorem fixedBitsMatch_of_row {i : Instr} {w : Word} (h : w &&& i.row.mask = i.row.value) : fixedBitsMatch i.iset w = true := by
  have hmask : i.row.mask &&& 0xFFB00300#32 = 0xFFB00300#32 := by
    rcases row_mask_value i with ⟨hm, -⟩ | ⟨hm, -⟩ <;> rw [hm] <;> rfl
  have hvalue : i.row.value &&& 0xFFB00300#32 = Machine.fixedBits i.iset := by
    rcases row_mask_value i with ⟨-, hv⟩ | ⟨-, hv⟩ <;> rw [hv, layOut_and_mask]
  rw [fixedBitsMatch_iff, ← hmask, ← BitVec.and_assoc, h, hvalue]

/-- `(w & 0xD) != 0xD` says that `Rm` is an index register (rule R88). -/
theorem isIndexReg_fieldsOf (w : Word) : isIndexReg (fieldsOf w).rm = (w &&& 0xD#32 != 0xD#32) := by
  have hw : w &&& 0xD#32 = ((fieldsOf w).rm &&& 0xD#4).setWidth 32 := by
    apply BitVec.eq_of_getLsbD_eq
    intro k hk
    rw [fieldsOf]
    interval_cases k <;> simp
  rw [hw]
  generalize (fieldsOf w).rm = rm
  revert rm
  decide

/-- The one constraint on a row's fields, read off its row of the table. -/
theorem wellFormed_eq (i : Instr) : i.wellFormed = (!i.row.indexReg || isIndexReg i.fields.rm) := by cases i <;> rfl

/-- The row's test on a word that has the instruction's fields. -/
theorem row_holds_iff {i : Instr} {w : Word} (h : i.fields = fieldsOf w) :
    i.row.holds w = true ↔ w &&& i.row.mask = i.row.value ∧ i.wellFormed = true := by
  rw [OpcodeRow.holds, wellFormed_eq, h, isIndexReg_fieldsOf, Bool.and_eq_true, beq_iff_eq]

/-! ## The patterns `size == '11'` -/

theorem elemSize_rowOf_of_size11 (iset : ISet) {f : Fields} (h : f.size = 3#2) : Machine.elemSize (rowOf iset f) = none := by
  obtain ⟨dd, rn, size, ia, rm⟩ := f
  obtain rfl : size = 3#2 := h
  cases iset <;> rfl

/-- A word of the UNDEFINED pattern of rule R89 has the fixed bits and `size == '11'`. -/
theorem fixedBitsMatch_and_size_of_size11 {iset : ISet} {w : Word} (h : w &&& 0xFFB00F00#32 = Machine.size11Bits iset) :
    fixedBitsMatch iset w = true ∧ (fieldsOf w).size = 3#2 := by
  constructor
  · have hmask : w &&& 0xFFB00300#32 = (w &&& 0xFFB00F00#32) &&& 0xFFB00300#32 := by rw [BitVec.and_assoc]; rfl
    rw [fixedBitsMatch_iff, hmask, h]
    cases iset <;> rfl
  · rw [fieldsOf, extractLsb'_eq_of_mask (lo := 10) (n := 2) w (m := 0xFFB00F00#32) rfl, h]
    cases iset <;> rfl

/-! ## The assembler -/

/-- The fields of a line's word, given its alignment bits (rule R101). -/
def AsmLine.fields (l : AsmLine) (a : BitVec 2) : Fields := ⟨l.first, l.rn, l.size.sizeField, l.indexAlign a, l.form.rmField⟩

/-- The formula of rule R101 lays its fields out as rule R81 does. -/
theorem asmFormula_eq_layOut (iset : ISet) (f : Fields) :
    asmBase iset ||| ((f.dd >>> 4).setWidth 32 <<< 22) ||| (f.rn.setWidth 32 <<< 16) ||| ((f.dd &&& 15#5).setWidth 32 <<< 12) |||
      (f.size.setWidth 32 <<< 10) ||| (3#32 <<< 8) ||| (f.ia.setWidth 32 <<< 4) ||| f.rm.setWidth 32 = layOut iset f := by
  apply BitVec.eq_of_getLsbD_eq
  intro k hk
  cases iset <;> interval_cases k <;> simp only [layOut, BitVec.getLsbD_append] <;> simp [asmBase, opcodeBits]

/-- A well-formed line's parts that its word must give back. -/
structure AsmLine.Encodable (l : AsmLine) (a : BitVec 2) : Prop where
  spacing : l.size = .b8 → l.double = false
  index   : l.index < l.size.lanes
  align   : l.size.alignBits l.align = some a
  form    : ∀ rm, l.form = .postIndexedBy rm → isIndexReg rm = true

theorem AsmLine.encodable_of_wellFormed {iset : ISet} {l : AsmLine} (h : l.wellFormed iset = true) : ∃ a, l.Encodable a := by
  simp only [AsmLine.wellFormed, Bool.and_eq_true, decide_eq_true_eq] at h
  obtain ⟨⟨⟨⟨⟨⟨-, hspacing⟩, hindex⟩, halign⟩, -⟩, -⟩, hform⟩ := h
  obtain ⟨a, ha⟩ := Option.isSome_iff_exists.mp halign
  refine ⟨a, fun hsize => by simpa [hsize] using hspacing, hindex, ha, fun rm hrm => by simpa [hrm] using hform⟩

/-- A well-formed line assembles to its fields laid out. -/
theorem assemble_eq_layOut {iset : ISet} {l : AsmLine} {a : BitVec 2} (hwf : l.wellFormed iset = true) (h : l.Encodable a) :
    assemble iset l = some (layOut iset (l.fields a)) := by
  rw [assemble, if_pos hwf, h.align, Option.map_some, ← asmFormula_eq_layOut]
  rfl

/-- The row of a line's fields is written with the line's size and form. -/
theorem disassemble_rowOf (iset : ISet) (sz : ElemSize) (dd : BitVec 5) (rn ia : BitVec 4) {form : AsmForm}
    (h : ∀ rm, form = .postIndexedBy rm → isIndexReg rm = true) :
    disassemble (rowOf iset ⟨dd, rn, sz.sizeField, ia, form.rmField⟩) = lineOf sz dd rn ia form := by
  cases form with
  | offset => cases iset <;> cases sz <;> rfl
  | postIndexed => cases iset <;> cases sz <;> rfl
  | postIndexedBy rm =>
    cases iset <;> cases sz <;> exact congrArg disassemble (byForm_of_isIndexReg (h rm rfl) _ _ _)

/-- The alignments of each size, with their alignment bits (rule R99). -/
theorem alignBits_cases {sz : ElemSize} {align : Option Nat} {a : BitVec 2} (h : sz.alignBits align = some a) :
    (align = none ∧ a = 0#2) ∨ (sz = .b8 ∧ align = some 32 ∧ a = 1#2) ∨ (sz = .b16 ∧ align = some 64 ∧ a = 1#2) ∨
    (sz = .b32 ∧ align = some 64 ∧ a = 1#2) ∨ (sz = .b32 ∧ align = some 128 ∧ a = 2#2) := by
  unfold ElemSize.alignBits at h
  split at h <;> simp_all

/-- Only 32-bit elements use the upper alignment bit. -/
theorem alignBits_lt {sz : ElemSize} {align : Option Nat} {a : BitVec 2} (h : sz.alignBits align = some a) (hsz : sz ≠ .b32) :
    a.toNat < 2 := by
  rcases alignBits_cases h with ⟨-, rfl⟩ | ⟨-, -, rfl⟩ | ⟨-, -, rfl⟩ | ⟨rfl, -⟩ | ⟨rfl, -⟩
  · decide
  · decide
  · decide
  · exact absurd rfl hsz
  · exact absurd rfl hsz

/-- An `index_align` that holds the bits of an alignment is read as that alignment. -/
theorem alignOf_of_alignBits {sz : ElemSize} {align : Option Nat} {a : BitVec 2} {ia : BitVec 4}
    (h : sz.alignBits align = some a) (hlow : ia.getLsbD 0 = a.getLsbD 0) (hboth : sz = .b32 → ia.extractLsb' 0 2 = a) :
    sz.alignOf ia = some align := by
  rcases alignBits_cases h with ⟨rfl, rfl⟩ | ⟨rfl, rfl, rfl⟩ | ⟨rfl, rfl, rfl⟩ | ⟨rfl, rfl, rfl⟩ | ⟨rfl, rfl, rfl⟩
  · cases sz with
    | b8 => rw [ElemSize.alignOf, hlow]; rfl
    | b16 => rw [ElemSize.alignOf, hlow]; rfl
    | b32 => rw [ElemSize.alignOf, hboth rfl]; rfl
  · rw [ElemSize.alignOf, hlow]; rfl
  · rw [ElemSize.alignOf, hlow]; rfl
  · rw [ElemSize.alignOf, hboth rfl]; rfl
  · rw [ElemSize.alignOf, hboth rfl]; rfl

/-- `index_align` of 8-bit elements, packed by rule R101, holds the index and the alignment bit. -/
theorem indexAlign8_holds : ∀ index < 8, ∀ a : BitVec 2, a.toNat < 2 →
    let ia := BitVec.ofNat 4 (2 * index + a.toNat)
    (ia.extractLsb' 1 3).toNat = index ∧ ia.getLsbD 0 = a.getLsbD 0 := by decide

/-- `index_align` of 16-bit elements holds the index, the spacing and the alignment bit. -/
theorem indexAlign16_holds : ∀ index < 4, ∀ (double : Bool) (a : BitVec 2), a.toNat < 2 →
    let ia := BitVec.ofNat 4 (4 * index + 2 * (if double then 1 else 0) + a.toNat)
    (ia.extractLsb' 2 2).toNat = index ∧ ia.getLsbD 1 = double ∧ ia.getLsbD 0 = a.getLsbD 0 := by decide

/-- `index_align` of 32-bit elements holds the index, the spacing and both alignment bits. -/
theorem indexAlign32_holds : ∀ index < 2, ∀ (double : Bool) (a : BitVec 2),
    let ia := BitVec.ofNat 4 (8 * index + 4 * (if double then 1 else 0) + a.toNat)
    (ia.extractLsb' 3 1).toNat = index ∧ ia.getLsbD 2 = double ∧ ia.getLsbD 0 = a.getLsbD 0 ∧ ia.extractLsb' 0 2 = a := by decide

/-- A line's fields are read back as the line. -/
theorem lineOf_indexAlign {l : AsmLine} {a : BitVec 2} (h : l.Encodable a) :
    lineOf l.size l.first l.rn (l.indexAlign a) l.form = some { l with conditional := false } := by
  obtain ⟨hspacing, hindex, halign, -⟩ := h
  obtain ⟨conditional, size, first, double, index, rn, align, form⟩ := l
  cases size with
  | b8 =>
    obtain rfl := hspacing rfl
    obtain ⟨hi, hlow⟩ := indexAlign8_holds index hindex a (alignBits_lt halign nofun)
    rw [AsmLine.indexAlign, lineOf, alignOf_of_alignBits halign hlow nofun, Option.map_some]
    dsimp only
    rw [hi]
  | b16 =>
    obtain ⟨hi, hdouble, hlow⟩ := indexAlign16_holds index hindex double a (alignBits_lt halign nofun)
    rw [AsmLine.indexAlign, lineOf, alignOf_of_alignBits halign hlow nofun, Option.map_some]
    dsimp only
    rw [hi, hdouble]
  | b32 =>
    obtain ⟨hi, hdouble, hlow, hboth⟩ := indexAlign32_holds index hindex double a
    rw [AsmLine.indexAlign, lineOf, alignOf_of_alignBits halign hlow fun _ => hboth, Option.map_some]
    dsimp only
    rw [hi, hdouble]

end Sys2Proof

namespace Sys2Proof.Machine

/-! ## The Decode block and the row it selects -/

/-- `index_align[1:0] == '11'` with 32-bit elements, in the words of rule R90. -/
theorem reservedAlign_iff {sz : ElemSize} {ia : BitVec 4} : reservedAlign sz ia = true ↔ sz = .b32 ∧ ia.toNat % 4 = 3 := by
  cases sz <;> revert ia <;> decide

theorem decodeBlock_of_reservedAlign {sz : ElemSize} {ia : BitVec 4} (h : reservedAlign sz ia = true) (dd : BitVec 5)
    (rn rm : BitVec 4) : decodeBlock sz dd rn ia rm = .undef := if_pos h

/-- Past the UNDEFINED test the Decode block tests `n == 15`, then `d4 > 31` (rule R153). -/
theorem decodeBlock_of_not_reservedAlign {sz : ElemSize} {ia : BitVec 4} (h : ¬ reservedAlign sz ia = true) (dd : BitVec 5)
    (rn rm : BitVec 4) : decodeBlock sz dd rn ia rm =
      if rn = 15#4 then .unpredN15
      else if 31 < (opsOf sz dd rn ia rm).d4 then .cuD4 (opsOf sz dd rn ia rm) else .ok (opsOf sz dd rn ia rm) := if_neg h

theorem decodeBlock_undef_iff {sz : ElemSize} {dd : BitVec 5} {rn ia rm : BitVec 4} :
    decodeBlock sz dd rn ia rm = .undef ↔ reservedAlign sz ia = true := by
  constructor
  · intro h
    by_contra hres
    rw [decodeBlock_of_not_reservedAlign hres] at h
    split at h
    · cases h
    split at h <;> cases h
  · exact fun h => decodeBlock_of_reservedAlign h dd rn rm

/-- The operands of a class in the words of rules R84 to R87. -/
theorem opsOf_eq (sz : ElemSize) (dd : BitVec 5) (rn ia rm : BitVec 4) : opsOf sz dd rn ia rm =
    ⟨(shapeOf sz ia).ebytes, (shapeOf sz ia).index, (shapeOf sz ia).inc, (shapeOf sz ia).alignment, dd.toNat, rn.toFin, rm.toFin,
      decide (rm.toNat ≠ 15), decide (rm.toNat ≠ 15 ∧ rm.toNat ≠ 13)⟩ := by
  have hregs : (rm != 15#4) = decide (rm.toNat ≠ 15) ∧
      (rm != 15#4 && rm != 13#4) = decide (rm.toNat ≠ 15 ∧ rm.toNat ≠ 13) := by revert rm; decide
  rw [opsOf, hregs.2, hregs.1]
  rfl

/-- The encodings without a row of the table are the patterns `size == '11'` and the reserved alignments (rules R89, R90). -/
theorem tableRow_eq_none_iff {i : Instr} : tableRow i = none ↔ elemSize i = none ∨ reservedEncoding i = true := by
  rw [tableRow, reservedEncoding]
  cases hsz : elemSize i with
  | none => simp
  | some sz => simp [tableShape_eq, reservedAlign_iff]

/-! ## The Operation on an encoding that is UNDEFINED or UNPREDICTABLE -/

/-- An UNDEFINED encoding raises Undefined Instruction before anything else (rule R180). -/
theorem exec_of_undef {i : Instr} {s : State} (hcond : s.conditionPassed i.iset = true) (h : decodeResult i = .undef) :
    exec i s = .fault (.undefinedInstruction s.pc (encode i) s) := by
  rw [exec_eq_execute, h, execute, if_pos hcond]
  rfl

/-- A list that runs past D31 is what `CU_d4` says (rules R92, R154). -/
theorem exec_eq_registerListPastEnd {i : Instr} {shape : Shape} {s : State} (h : ListPastEnd i shape)
    (hcond : s.conditionPassed i.iset = true) : exec i s = registerListPastEnd i.iset (encode i) (opsAt i shape) s := by
  rw [exec_eq_execute, decodeResult_cuD4_iff.mpr ⟨shape, h, rfl⟩, execute, if_pos hcond]

/-- A row of the table has single or double spacing (rule R85). -/
theorem inc_of_tableShape {sz : ElemSize} {ia : BitVec 4} {shape : Shape} (h : tableShape sz ia = some shape) :
    shape.inc = 1 ∨ shape.inc = 2 := by
  rw [tableShape_eq, Option.ite_none_left_eq_some] at h
  obtain ⟨-, ⟨⟩⟩ := h
  exact incOf_le sz ia

theorem State.retire_advanced (s : State) (iset : ISet) : Advanced iset s (s.retire iset) := by
  cases iset <;> exact ⟨rfl, rfl⟩

/-- Retiring moves the pc and the launch's answers only. -/
theorem State.retire_eq (s : State) (iset : ISet) :
    s.retire iset = { s with pc := (s.retire iset).pc, condAnswers := (s.retire iset).condAnswers } := by
  cases iset <;> rfl

/-- The `Unknown` row of rule R154, past the enable check, completes or raises a Data Abort (log 6). -/
theorem unknownList_cases (iset : ISet) (ops : Ops) (s : State) :
    (∃ t, unknownList iset ops s = .next t) ∨ ∃ a r, unknownList iset ops s = .fault (.dataAbort a r) := by
  rw [unknownList]
  cases Config.freeUnknownRowEnd (ops.unknownStorage s).draws with
  | completes => exact .inl ⟨_, rfl⟩
  | alignmentFault => exact .inr ⟨_, _, rfl⟩
  | abort info => exact .inr ⟨_, _, rfl⟩

/-! ## The obligations -/

/-- Settles O2, by `decodeWord_encode`: the bytes of a word read back as the word, and the word decodes to its instruction. -/
theorem decodeOfEncodeIsIdentity : Obligations.DecodeOfEncodeIsIdentity := by
  intro i rest hwf
  rw [encodeBytes, decode_bytesOfWord, decodeWord_encode hwf]
  rfl

/-- Settles O3, by `decodeWord_ok_iff`. -/
theorem encodeOfDecodeIsIdentity : Obligations.EncodeOfDecodeIsIdentity := fun _ _ _ h => decodeWord_ok_iff.mp h

/-- Settles O4: a word with the row's match value has the fixed bits of the row's set, so it is the word laid out from its fields. -/
theorem decodeFollowsOpcodeTable : Obligations.DecodeFollowsOpcodeTable := by
  refine ⟨fun iset w i => ?_, fun iset w => ⟨fun h hfix => ?_, decodeWord_notInScope⟩⟩
  · rw [decodeWord_ok_iff, row_iset]
    constructor
    · rintro ⟨rfl, hiset, hwf⟩
      have hfields := (fieldsOf_encode i).symm
      exact ⟨hiset, (row_holds_iff hfields).mpr ⟨encode_and_row_mask i, hwf⟩, hfields⟩
    · rintro ⟨hiset, hholds, hfields⟩
      obtain ⟨hmask, hwf⟩ := (row_holds_iff hfields).mp hholds
      exact ⟨by rw [encode, hfields, layOut_fieldsOf (fixedBitsMatch_of_row hmask)], hiset, hwf⟩
  · rw [decodeWord_of_fixedBitsMatch ((fixedBitsMatch_iff iset w).mpr hfix)] at h
    cases h

/-- Settles O5: the word of a line is its fields laid out, so it decodes to the row of those fields, which is written as the line. -/
theorem assembledLineReadsBack : Obligations.AssembledLineReadsBack := by
  refine fun iset l => ⟨fun hwf => ?_, fun hwf => if_neg (Bool.eq_false_iff.mp hwf)⟩
  obtain ⟨a, h⟩ := AsmLine.encodable_of_wellFormed hwf
  have hdecode : decodeWord iset (layOut iset (l.fields a)) = .ok (rowOf iset (l.fields a)) := by
    rw [decodeWord_of_fixedBitsMatch (fixedBitsMatch_layOut _ _), fieldsOf_layOut]
  refine ⟨_, _, assemble_eq_layOut hwf h, hdecode, ?_⟩
  rw [AsmLine.fields, disassemble_rowOf iset _ _ _ _ h.form, lineOf_indexAlign h]

/-- Settles O6, by `tableShape_eq`: the table has no row exactly at the reserved alignments, and its rows are the operands. -/
theorem decodeBlockFollowsOperandTable : Obligations.DecodeBlockFollowsOperandTable := by
  intro sz dd rn ia rm
  rw [tableShape_eq]
  by_cases hres : reservedAlign sz ia = true
  · rw [if_pos hres]
    exact decodeBlock_of_reservedAlign hres dd rn rm
  · rw [if_neg hres, decodeBlock_of_not_reservedAlign hres, opsOf_eq]
    have hrn : rn = 15#4 ↔ rn.toNat = 15 := BitVec.toNat_inj.symm
    refine ⟨fun h => if_pos (hrn.mpr h), fun h hd => ?_, fun h hd => ?_⟩
    · rw [if_neg (mt hrn.mp h)]
      exact if_pos hd
    · rw [if_neg (mt hrn.mp h)]
      exact if_neg (Nat.not_lt.mpr hd)

/-- Settles O22: a reserved alignment has no row of the table, and the UNDEFINED test comes first. -/
theorem reservedAlignmentIsUndefined : Obligations.ReservedAlignmentIsUndefined :=
  ⟨fun _ _ hres hcond => exec_of_undef hcond (decodeResult_of_no_row (tableRow_eq_none_iff.mpr (.inr hres))),
    fun _ _ _ _ _ hsz hundef => hsz (reservedAlign_iff.mp (decodeBlock_undef_iff.mp hundef)).1⟩

/-- Settles O23: an encoding with a row of the table and base 15 is refused before its list is looked at. -/
theorem baseFifteenIsRefused : Obligations.BaseFifteenIsRefused := by
  intro i s hsz hres hbase hcond
  have hrow : tableRow i ≠ none := fun h => (tableRow_eq_none_iff.mp h).elim hsz (by simp [hres])
  obtain ⟨shape, hshape⟩ := Option.ne_none_iff_exists'.mp hrow
  rw [exec_eq_execute, decodeResult_of_row hshape, if_pos hbase, execute, if_pos hcond]

/-- Settles O24: the spacing is that of the table's row, and each value of `CU_d4` is one row of rule R154. -/
theorem listPastEndFollowsParameter : Obligations.ListPastEndFollowsParameter := by
  intro i shape s h hcond
  obtain ⟨sz, -, hshape⟩ := h.row
  have hinc := inc_of_tableShape hshape
  have hlist := h.list
  rw [exec_eq_registerListPastEnd h hcond, registerListPastEnd]
  refine ⟨fun h1 => by omega, fun h2 => by omega, hinc, fun hcu => by rw [hcu], fun hcu => by rw [hcu]; rfl, fun hcu => ?_,
    fun hcu hunit => ?_⟩
  · rw [hcu]
    exact ⟨_, rfl, s.retire_advanced _, s.retire_eq _⟩
  · rw [hcu]
    dsimp only
    rw [whenEnabled, hunit]
    exact unknownList_cases _ _ _

/-- Settles O1: each word is one run of the decoder. -/
theorem wordsOfEveryClassDecode : Obligations.WordsOfEveryClassDecode :=
  ⟨rfl, rfl, rfl, rfl, rfl, rfl, rfl, rfl, rfl⟩

/-- Settles O21: such a word has the fixed bits and `size == '11'`, and its Decode block is UNDEFINED. -/
theorem size11PatternsAreUndefined : Obligations.Size11PatternsAreUndefined := by
  refine ⟨fun iset w h => ?_, fun dd rn ia rm s => exec_of_undef rfl rfl, fun dd rn ia rm s hcond => exec_of_undef hcond rfl⟩
  obtain ⟨hfix, hsize⟩ := fixedBitsMatch_and_size_of_size11 h
  have hdecode := decodeWord_of_fixedBitsMatch hfix
  exact ⟨_, hdecode, elemSize_rowOf_of_size11 iset hsize, (decodeWord_ok_iff.mp hdecode).1⟩

end Sys2Proof.Machine

/-! SUPPORT. Proofs of the family 40_vst4_decode_a32.md: the nine A32 encodings complete. First the rules they need, said of any
encoding: what the base register holds after, and the whole effect of a store whose premises hold. -/

namespace Sys2Proof.Machine

/-! ## The base register by address form -/

/-- The Offset form leaves the base register (rule R160). -/
theorem newBase_of_offset {i : Instr} (h : i.fields.rm = 15#4) (shape : Shape) (s : State) :
    newBase i shape s = baseAddress i s := by
  rw [newBase, if_pos h]

/-- The post-indexed form adds the size of the structure (rule R160). -/
theorem newBase_of_postIndexed {i : Instr} (h : i.fields.rm = 13#4) (shape : Shape) (s : State) :
    newBase i shape s = baseAddress i s + BitVec.ofNat 32 (4 * shape.ebytes) := by
  have h15 : i.fields.rm ≠ 15#4 := by rw [h]; decide
  rw [newBase, if_neg h15, if_pos h]

/-- The form post-indexed by register adds `R[m]`, also where `m = n` (rule R160). -/
theorem newBase_of_postIndexedByRegister {i : Instr} (h13 : i.fields.rm ≠ 13#4) (h15 : i.fields.rm ≠ 15#4) (shape : Shape)
    (s : State) : newBase i shape s = baseAddress i s + s.readGpr i.fields.rm.toFin := by
  rw [newBase, if_neg h15, if_neg h13]

/-- The writeback leaves in the base register what the address form says. -/
theorem writeback_readGpr_baseReg (i : Instr) (shape : Shape) (s : State) :
    ((opsAt i shape).writeback s).readGpr (baseReg i) = newBase i shape s := by
  by_cases h15 : i.fields.rm = 15#4
  · simp [newBase_of_offset h15, Ops.writeback, opsAt, h15, baseAddress]
  · have hwback : (opsAt i shape).wback = true := bne_iff_ne.mpr h15
    refine (Ops.writeback_readGpr_base hwback s).trans ?_
    by_cases h13 : i.fields.rm = 13#4
    · simp [newBase_of_postIndexed h13, Ops.writebackValue, opsAt, h13, baseAddress]
    · simp [newBase_of_postIndexedByRegister h13 h15, Ops.writebackValue, opsAt, h13, h15, baseAddress]

/-- The value for the base register does not depend on data memory. -/
theorem newBase_withMem (i : Instr) (shape : Shape) (s : State) (m : Memory) :
    newBase i shape (s.withMem m) = newBase i shape s := rfl

/-! ## The effect of a completed store -/

/-- The state after the writeback and `pc + 4` has the whole effect of rule R165, once memory holds the structure. -/
theorem storeEffect_of_noWrap {i : Instr} {shape : Shape} {s : State}
    (hwrap : (baseAddress i s).toNat + 4 * shape.ebytes ≤ 2 ^ 32) :
    StoreEffect i shape s (((opsAt i shape).writeback
      (s.withMem (storedPrefix s (baseAddress i s) shape (firstReg i) (4 * shape.ebytes)))).retire i.iset) (newBase i shape s) where
  memory    := structureStored_of_mem (by simp) hwrap
  registers := {
    value  := by rw [State.readGpr_retire, writeback_readGpr_baseReg, newBase_withMem]
    others := fun r hr => by rw [State.readGpr_retire, Ops.writeback_readGpr_other (Ne.symm hr), State.readGpr_withMem] }
  dregs     := by simp
  draws     := by simp
  system    := ⟨by simp, by simp, by simp, by simp⟩
  advanced  := ⟨by simp, (State.retire_advanced _ _).condAnswers.trans (by simp)⟩

/-- The closed form of rule R165, for any encoding: wherever its premises hold, the instruction completes with its whole effect. -/
theorem exec_completes {i : Instr} {shape : Shape} {s : State} (hexec : Executable i shape)
    (hcond : s.conditionPassed i.iset = true) (hcan : CanStore s (baseAddress i s) shape (firstReg i)) :
    ∃ t, exec i s = .next t ∧ StoreEffect i shape s t (newBase i shape s) :=
  ⟨_, (exec_eq_storeStructure hexec hcond hcan.enabled hcan.checks).trans
    (storeStructure_of_admitted (opsAt_matches i shape) hcan.admitted), storeEffect_of_noWrap hcan.checks.noWrap⟩

/-! ## Completion by address form -/

/-- An instruction completes with any description of its base register that agrees with its address form. -/
theorem completes_of_newBase_eq {i : Instr} {sz : ElemSize} {base : Shape → State → Word} (hsz : elemSize i = some sz)
    (hbase : ∀ shape s, tableShape sz i.fields.ia = some shape → newBase i shape s = base shape s) : Completes i sz base := by
  intro shape s hrow hn hlist hcond hcan
  rw [← hbase shape s hrow]
  exact exec_completes ⟨⟨sz, hsz, hrow⟩, hn, hlist⟩ hcond hcan

/-- A row of the table has the element size of its class (rule R85). -/
theorem ebytes_of_tableShape {sz : ElemSize} {ia : BitVec 4} {shape : Shape} (h : tableShape sz ia = some shape) :
    shape.ebytes = ebytesOf sz := by
  rw [tableShape_eq, Option.ite_none_left_eq_some] at h
  obtain ⟨-, ⟨⟩⟩ := h
  rfl

theorem completes_offset {i : Instr} {sz : ElemSize} (hsz : elemSize i = some sz) (hrm : i.fields.rm = 15#4) :
    Completes i sz fun _ s => baseAddress i s :=
  completes_of_newBase_eq hsz fun shape s _ => newBase_of_offset hrm shape s

theorem completes_postIndexed {i : Instr} {sz : ElemSize} (hsz : elemSize i = some sz) (hrm : i.fields.rm = 13#4) :
    Completes i sz fun _ s => baseAddress i s + BitVec.ofNat 32 (4 * ebytesOf sz) :=
  completes_of_newBase_eq hsz fun shape s hrow => by rw [newBase_of_postIndexed hrm, ebytes_of_tableShape hrow]

theorem completes_postIndexedByRegister {i : Instr} {sz : ElemSize} (hsz : elemSize i = some sz)
    (h13 : i.fields.rm.toNat ≠ 13) (h15 : i.fields.rm.toNat ≠ 15) :
    Completes i sz fun _ s => baseAddress i s + s.readGpr i.fields.rm.toFin :=
  completes_of_newBase_eq hsz fun shape s _ =>
    newBase_of_postIndexedByRegister (BitVec.toNat_ne_iff_ne.mp h13) (BitVec.toNat_ne_iff_ne.mp h15) shape s

/-! ## The obligations -/

/-- Settles O11, by `completes_offset` for each element size. -/
theorem a32OffsetFormsComplete : Obligations.A32OffsetFormsComplete :=
  fun _ _ _ => ⟨completes_offset rfl rfl, completes_offset rfl rfl, completes_offset rfl rfl⟩

/-- Settles O12, by `completes_postIndexed`: the structure is 4, 8 or 16 bytes by element size. -/
theorem a32PostIndexedFormsComplete : Obligations.A32PostIndexedFormsComplete :=
  fun _ _ _ => ⟨completes_postIndexed rfl rfl, completes_postIndexed rfl rfl, completes_postIndexed rfl rfl⟩

/-- Settles O13, by `completes_postIndexedByRegister` for each element size. -/
theorem a32PostIndexedByRegisterFormsComplete : Obligations.A32PostIndexedByRegisterFormsComplete :=
  fun _ _ _ _ => ⟨fun h13 h15 => completes_postIndexedByRegister rfl h13 h15,
    fun h13 h15 => completes_postIndexedByRegister rfl h13 h15, fun h13 h15 => completes_postIndexedByRegister rfl h13 h15⟩

end Sys2Proof.Machine

/-! SUPPORT. Proofs of the family 41_vst4_decode_t32.md: the nine T32 encodings complete. The completion rules by address form hold of
any encoding, and what `Advanced` says of the launch's answers follows the instruction set of the encoding. -/

namespace Sys2Proof.Machine

/-! ## The obligations -/

/-- Settles O14, by `completes_offset` for each element size. -/
theorem t32OffsetFormsComplete : Obligations.T32OffsetFormsComplete :=
  fun _ _ _ => ⟨completes_offset rfl rfl, completes_offset rfl rfl, completes_offset rfl rfl⟩

/-- Settles O15, by `completes_postIndexed`: the structure is 4, 8 or 16 bytes by element size. -/
theorem t32PostIndexedFormsComplete : Obligations.T32PostIndexedFormsComplete :=
  fun _ _ _ => ⟨completes_postIndexed rfl rfl, completes_postIndexed rfl rfl, completes_postIndexed rfl rfl⟩

/-- Settles O16, by `completes_postIndexedByRegister` for each element size. -/
theorem t32PostIndexedByRegisterFormsComplete : Obligations.T32PostIndexedByRegisterFormsComplete :=
  fun _ _ _ _ => ⟨fun h13 h15 => completes_postIndexedByRegister rfl h13 h15,
    fun h13 h15 => completes_postIndexedByRegister rfl h13 h15, fun h13 h15 => completes_postIndexedByRegister rfl h13 h15⟩

end Sys2Proof.Machine

/-! SUPPORT. Proofs of the family 42_vst4_execute.md: how an instruction can end, what each end leaves unchanged, and what an
instruction does not read. First the rules they need. -/

namespace Sys2Proof.Machine

/-! ## The tests of the Operation, each where it decides -/

theorem whenEnabled_of_undef {word : Word} {s : State} {k : State → Out} (h : s.advSimdCheck = .undef) :
    whenEnabled word s k = .fault (.undefinedInstruction s.pc word s) := by
  rw [whenEnabled, h]
  rfl

theorem whenEnabled_of_hypTrap {word : Word} {s : State} {k : State → Out} (h : s.advSimdCheck = .hypTrap) :
    whenEnabled word s k = .fault (.hypTrap s.pc word s) := by
  rw [whenEnabled, h]
  rfl

theorem whenEnabled_of_enabled {word : Word} {s : State} {k : State → Out} (h : s.advSimdCheck = .enabled) :
    whenEnabled word s k = k s := by
  rw [whenEnabled, h]

/-- An executable encoding whose condition fails only advances (rule R151). -/
theorem exec_of_condition_failed {i : Instr} {shape : Shape} {s : State} (hexec : Executable i shape)
    (hcond : s.conditionPassed i.iset = false) : exec i s = .next (s.retire i.iset) := by
  rw [exec_eq_execute, decodeResult_ok_iff.mpr ⟨shape, hexec, rfl⟩, execute, if_neg (Bool.eq_false_iff.mp hcond)]

/-- An executable encoding whose condition passes comes to the enable check (rule R155). -/
theorem exec_eq_whenEnabled_storeChecked {i : Instr} {shape : Shape} {s : State} (hexec : Executable i shape)
    (hcond : s.conditionPassed i.iset = true) :
    exec i s = whenEnabled (encode i) s (storeChecked i.iset (opsAt i shape)) := by
  rw [exec_eq_execute, decodeResult_ok_iff.mpr ⟨shape, hexec, rfl⟩, execute, if_pos hcond]

/-- A list that runs past D31 is a NOP under `CU_d4 = Nop` (rule R154). -/
theorem exec_of_nop {i : Instr} {shape : Shape} {s : State} (hlist : ListPastEnd i shape)
    (hcond : s.conditionPassed i.iset = true) (hcu : s.launch.cuD4 = .nop) : exec i s = .next (s.retire i.iset) := by
  rw [exec_eq_registerListPastEnd hlist hcond, registerListPastEnd, hcu]

/-- A list that runs past D31 comes to the enable check under `CU_d4 = Unknown` (rule R154). -/
theorem exec_eq_whenEnabled_unknownList {i : Instr} {shape : Shape} {s : State} (hlist : ListPastEnd i shape)
    (hcond : s.conditionPassed i.iset = true) (hcu : s.launch.cuD4 = .unknown) :
    exec i s = whenEnabled (encode i) s (unknownList i.iset (opsAt i shape)) := by
  rw [exec_eq_registerListPastEnd hlist hcond, registerListPastEnd, hcu]

/-- A big-endian data configuration is refused right after the alignment test (rule R50). -/
theorem storeChecked_of_bigEndian {iset : ISet} {ops : Ops} {s : State} (halign : ops.misaligned s (s.readGpr ops.n) = false)
    (hbig : s.launch.bigEndianData = true) : storeChecked iset ops s = .refused .bigEndianData := by
  rw [storeChecked, if_neg (Bool.eq_false_iff.mp halign), if_pos hbig]

/-- A structure past the top of memory is refused next (rule R60). -/
theorem storeChecked_of_wrap {iset : ISet} {ops : Ops} {s : State} (halign : ops.misaligned s (s.readGpr ops.n) = false)
    (hlittle : s.launch.bigEndianData = false) (hwrap : 2 ^ 32 < (s.readGpr ops.n).toNat + 4 * ops.ebytes) :
    storeChecked iset ops s = .refused .addressWrap := by
  rw [storeChecked, if_neg (Bool.eq_false_iff.mp halign), if_neg (Bool.eq_false_iff.mp hlittle), if_pos hwrap]

/-- A structure that meets the program text is refused last (rule R66). -/
theorem storeChecked_of_meetsText {iset : ISet} {ops : Ops} {s : State} (halign : ops.misaligned s (s.readGpr ops.n) = false)
    (hlittle : s.launch.bigEndianData = false) (hfits : (s.readGpr ops.n).toNat + 4 * ops.ebytes ≤ 2 ^ 32)
    (htext : s.meetsText (s.readGpr ops.n) (4 * ops.ebytes) = true) :
    storeChecked iset ops s = .refused .storeIntoProgramText := by
  rw [storeChecked, if_neg (Bool.eq_false_iff.mp halign), if_neg (Bool.eq_false_iff.mp hlittle), if_neg (Nat.not_lt.mpr hfits),
    if_pos htext]

/-- Every alignment of the table is at least one byte (rule R86). -/
theorem alignment_pos_of_tableShape {sz : ElemSize} {ia : BitVec 4} {shape : Shape} (h : tableShape sz ia = some shape) :
    0 < shape.alignment := by
  rw [tableShape_eq, Option.ite_none_left_eq_some] at h
  obtain ⟨-, ⟨⟩⟩ := h
  cases sz <;> revert ia <;> decide

/-- An encoding selects one row of the table. -/
theorem row_unique {i : Instr} {shape shape' : Shape} (h : ∃ sz, elemSize i = some sz ∧ tableShape sz i.fields.ia = some shape)
    (h' : ∃ sz, elemSize i = some sz ∧ tableShape sz i.fields.ia = some shape') : shape' = shape :=
  Option.some.inj ((tableRow_eq_some_iff.mpr h').symm.trans (tableRow_eq_some_iff.mpr h))

/-- An address zero-extended to 64 bits (rules R158, R182). -/
theorem zero_append_eq_setWidth (w : Word) : (0#32 ++ w : BitVec 64) = w.setWidth 64 := by
  refine BitVec.eq_of_toNat_eq ((BitVec.toNat_append 0#32 w).trans ?_)
  rw [BitVec.toNat_setWidth_of_le (by decide)]
  simp

/-! ## The instructions that complete -/

/-- The `Unknown` row completes exactly where the free value of rule R154 note (b) says so (log 6). -/
theorem unknownList_next_iff {iset : ISet} {ops : Ops} {s t : State} : unknownList iset ops s = .next t ↔
    Config.freeUnknownRowEnd (ops.unknownStorage s).draws = .completes ∧
      t = (ops.unknownBase (ops.unknownStorage s).countDraw).retire iset := by
  rw [unknownList]
  cases Config.freeUnknownRowEnd (ops.unknownStorage s).draws with
  | completes => simp [eq_comm]
  | alignmentFault => simp [raise]
  | abort info => simp [raise]

/-- The four ways in which an instruction completes: it is skipped, its structure is stored, it is a NOP, or it is the `Unknown` row
of rule R154. -/
inductive Completion (i : Instr) (s t : State) : Prop where
  | skipped {shape : Shape} (hexec : Executable i shape) (hcond : s.conditionPassed i.iset = false) (result : t = s.retire i.iset)
  | stored {shape : Shape} (hexec : Executable i shape) (hcond : s.conditionPassed i.iset = true)
      (hunit : s.advSimdCheck = .enabled) (hdone : Completed i.iset (opsAt i shape) s t)
  | nop {shape : Shape} (hlist : ListPastEnd i shape) (hcond : s.conditionPassed i.iset = true) (hcu : s.launch.cuD4 = .nop)
      (result : t = s.retire i.iset)
  | unknownRow {shape : Shape} (hlist : ListPastEnd i shape) (hcond : s.conditionPassed i.iset = true)
      (hcu : s.launch.cuD4 = .unknown) (hunit : s.advSimdCheck = .enabled)
      (hrow : unknownList i.iset (opsAt i shape) s = .next t)

theorem exec_next_completion {i : Instr} {s t : State} (h : exec i s = .next t) : Completion i s t := by
  have hcases := exec_eq_execute i s ▸ h
  rcases execute_next hcases with ⟨hcond, ⟨ops, hr⟩, ht⟩ | ⟨hcond, ops, hr, hunit, hdone⟩ | ⟨hcond, ⟨ops, hr⟩, hcu, ht⟩ |
    ⟨hcond, ops, hr, hcu, hunit, -⟩
  · obtain ⟨shape, hexec, -⟩ := decodeResult_ok_iff.mp hr
    exact .skipped hexec hcond ht
  · obtain ⟨shape, hexec, rfl⟩ := decodeResult_ok_iff.mp hr
    exact .stored hexec hcond hunit hdone
  · obtain ⟨shape, hlist, -⟩ := decodeResult_cuD4_iff.mp hr
    exact .nop hlist hcond hcu ht
  · obtain ⟨shape, hlist, rfl⟩ := decodeResult_cuD4_iff.mp hr
    rw [exec_eq_whenEnabled_unknownList hlist hcond hcu, whenEnabled_of_enabled hunit] at h
    exact .unknownRow hlist hcond hcu hunit h

/-! ## The instructions that raise -/

/-- The state at the raise of one of the page's exceptions; the stuck stops have none (rule R14). -/
def Fault.atRaise? : Fault → Option State
  | .undefinedInstruction _ _ r => some r
  | .hypTrap _ _ r => some r
  | .dataAbort _ r => some r
  | .outsideLaunchMemory _ => none
  | .misalignedPc _ => none
  | .fetchOutsideText _ => none

theorem raise_fault {e : Exception} {s r : State} {f : Fault} (h : raise e s = .fault f) (hr : f.atRaise? = some r) : r = s := by
  cases e <;> cases h <;> exact (Option.some.inj hr).symm

/-- The enable check raises in the state it is asked in; else a fault is that of what follows it. -/
theorem whenEnabled_fault {word : Word} {s r : State} {k : State → Out} {f : Fault} (h : whenEnabled word s k = .fault f)
    (hr : f.atRaise? = some r) : r = s ∨ k s = .fault f := by
  unfold whenEnabled at h
  split at h
  · exact .inl (raise_fault h hr)
  · exact .inl (raise_fault h hr)
  · exact .inr h

/-- The store path raises in the state it starts from, or with the bytes of the first elements UNKNOWN (rules R58, R182, R183). -/
theorem storeChecked_fault {iset : ISet} {ops : Ops} {s r : State} {f : Fault} (h : storeChecked iset ops s = .fault f)
    (hr : f.atRaise? = some r) : r = s ∨
    ∃ pre post, ops.elements s (s.readGpr ops.n) = pre ++ post ∧ r = s.unknownBytes (touchedBy pre) := by
  unfold storeChecked at h
  dsimp only at h
  split at h
  · exact .inl (raise_fault h hr)
  split at h
  · cases h
  split at h
  · cases h
  split at h
  · cases h
  unfold storeStructure at h
  rcases storeElements_cases s (ops.elements s (s.readGpr ops.n)) [] s.mem with
    ⟨hst, -⟩ | ⟨pre, e, post, info, hes, -, -, hst⟩ | ⟨-, -, -, a, -, -, -, -, -, hst⟩
  · rw [hst] at h
    cases h
  · rw [hst] at h
    exact .inr ⟨pre ++ [e], post, by simp [hes], raise_fault h hr⟩
  · rw [hst] at h
    cases h
    cases hr

/-- The `Unknown` row raises in the state it starts from, or with its storage UNKNOWN and one more draw made (log 6). -/
theorem unknownList_fault {iset : ISet} {ops : Ops} {s r : State} {f : Fault} (h : unknownList iset ops s = .fault f)
    (hr : f.atRaise? = some r) : r = s ∨ r = (ops.unknownStorage s).countDraw := by
  unfold unknownList at h
  dsimp only at h
  split at h
  · cases h
  · exact .inl (raise_fault h hr)
  · exact .inr (raise_fault h hr)

/-- A list that runs past D31 raises in the state it starts from, the `Unknown` row's end with UNKNOWN storage apart (rule R154). -/
theorem registerListPastEnd_fault {iset : ISet} {word : Word} {ops : Ops} {s r : State} {f : Fault}
    (h : registerListPastEnd iset word ops s = .fault f) (hr : f.atRaise? = some r) :
    r = s ∨ s.launch.cuD4 = .unknown ∧ r = (ops.unknownStorage s).countDraw := by
  unfold registerListPastEnd at h
  split at h
  · cases h
  · exact .inl (raise_fault h hr)
  · cases h
  · rename_i hcu
    rcases whenEnabled_fault h hr with hrs | hrow
    · exact .inl hrs
    · exact (unknownList_fault hrow hr).imp_right fun hrs => ⟨hcu, hrs⟩

/-- The states at a raise: the state before the instruction, the first elements of the structure UNKNOWN, or the storage of the
`Unknown` row UNKNOWN. -/
inductive RaiseState (i : Instr) (s r : State) : Prop where
  | unchanged (result : r = s)
  | aborted {shape : Shape} {pre post : List Element} (hexec : Executable i shape)
      (hsplit : (opsAt i shape).elements s (baseAddress i s) = pre ++ post) (result : r = s.unknownBytes (touchedBy pre))
  | unknownRow {shape : Shape} (hlist : ListPastEnd i shape) (hcu : s.launch.cuD4 = .unknown)
      (result : r = ((opsAt i shape).unknownStorage s).countDraw)

theorem exec_fault_raiseState {i : Instr} {s r : State} {f : Fault} (h : exec i s = .fault f) (hr : f.atRaise? = some r) :
    RaiseState i s r := by
  rw [exec_eq_execute] at h
  unfold execute at h
  split at h
  · split at h
    · exact .unchanged (raise_fault h hr)
    · cases h
    · rename_i ops hres
      obtain ⟨shape, hlist, rfl⟩ := decodeResult_cuD4_iff.mp hres
      rcases registerListPastEnd_fault h hr with hrs | ⟨hcu, hrs⟩
      · exact .unchanged hrs
      · exact .unknownRow hlist hcu hrs
    · rename_i ops hres
      obtain ⟨shape, hexec, rfl⟩ := decodeResult_ok_iff.mp hres
      rcases whenEnabled_fault h hr with hrs | hstore
      · exact .unchanged hrs
      · rcases storeChecked_fault hstore hr with hrs | ⟨pre, post, hsplit, hrs⟩
        · exact .unchanged hrs
        · exact .aborted hexec hsplit hrs
  · split at h <;> cases h

/-! ## The frame -/

/-- The encodings of the `Unknown` row of rule R154. -/
def UnknownRow (i : Instr) (s : State) : Prop := (∃ shape, ListPastEnd i shape) ∧ s.launch.cuD4 = .unknown

/-- An address that is no byte of the structure; an UNDEFINED encoding has no structure (rule R162). -/
def OutsideStructure (i : Instr) (s : State) (a : Nat) : Prop :=
  ∀ sz shape, elemSize i = some sz → tableShape sz i.fields.ia = some shape →
    ∀ b, b < 4 * shape.ebytes → (baseAddress i s + BitVec.ofNat 32 b).toNat ≠ a

/-- What rule R162 says an instruction leaves unchanged, however it ends. -/
structure Frame (i : Instr) (s t : State) : Prop where
  system : SystemUnchanged s t
  gprs   : ∀ r, r ≠ baseReg i → t.readGpr r = s.readGpr r
  dregs  : ¬ UnknownRow i s → t.dreg = s.dreg
  list   : ∀ shape, ListPastEnd i shape → ∀ r, (∀ k, k < 4 → firstReg i + k * shape.inc ≠ r) → t.readDreg r = s.readDreg r
  memory : ∀ a, OutsideStructure i s a → Memory.read t.mem a = Memory.read s.mem a

theorem Frame.refl (i : Instr) (s : State) : Frame i s s :=
  ⟨⟨rfl, rfl, rfl, rfl⟩, fun _ _ => rfl, fun _ => rfl, fun _ _ _ _ => rfl, fun _ _ => rfl⟩

/-- A further change of the base register only, and of the fields the frame does not speak of, keeps the frame. -/
theorem Frame.of_sameStorage {i : Instr} {s u v : State} (h : Frame i s u) (hsys : SystemUnchanged u v)
    (hgprs : ∀ r, r ≠ baseReg i → v.readGpr r = u.readGpr r) (hdreg : v.dreg = u.dreg) (hmem : v.mem = u.mem) : Frame i s v where
  system := ⟨hsys.el.trans h.system.el, hsys.dit.trans h.system.dit, hsys.simd.trans h.system.simd,
    hsys.launch.trans h.system.launch⟩
  gprs   := fun r hr => (hgprs r hr).trans (h.gprs r hr)
  dregs  := fun hrow => hdreg.trans (h.dregs hrow)
  list   := fun shape hlist r hr => (State.readDreg_congr hdreg r).trans (h.list shape hlist r hr)
  memory := fun a ha => (congrArg (Memory.read · a) hmem).trans (h.memory a ha)

theorem Frame.retire {i : Instr} {s u : State} (h : Frame i s u) (iset : ISet) : Frame i s (u.retire iset) :=
  h.of_sameStorage ⟨by simp, by simp, by simp, by simp⟩ (fun r _ => by simp) (by simp) (by simp)

theorem Frame.countDraw {i : Instr} {s u : State} (h : Frame i s u) : Frame i s u.countDraw :=
  h.of_sameStorage ⟨rfl, rfl, rfl, rfl⟩ (fun _ _ => rfl) rfl rfl

theorem Frame.writeback {i : Instr} {s u : State} (h : Frame i s u) (shape : Shape) : Frame i s ((opsAt i shape).writeback u) :=
  h.of_sameStorage ⟨by simp, by simp, by simp, by simp⟩ (fun _ hr => Ops.writeback_readGpr_other hr.symm u) (by simp) (by simp)

theorem Frame.unknownBase {i : Instr} {s u : State} (h : Frame i s u) (shape : Shape) : Frame i s ((opsAt i shape).unknownBase u) :=
  h.of_sameStorage ⟨by simp, by simp, by simp, by simp⟩ (fun _ hr => Ops.unknownBase_readGpr_other (.inr hr.symm) u) (by simp)
    (by simp)

/-- The addresses of the structure are not addresses outside it. -/
theorem OutsideStructure.toNat_ne {i : Instr} {s : State} {shape : Shape} {a : Nat} (h : OutsideStructure i s a)
    (hrow : ∃ sz, elemSize i = some sz ∧ tableShape sz i.fields.ia = some shape) :
    ∀ w ∈ addressRange (baseAddress i s) (4 * shape.ebytes), w.toNat ≠ a := by
  obtain ⟨sz, hsz, hshape⟩ := hrow
  intro w hw
  obtain ⟨b, hb, rfl⟩ := mem_addressRange.mp hw
  exact h sz shape hsz hshape b hb

/-- The elements touch addresses of the structure only, also where it wraps. -/
theorem touchedBy_elements_subset {ops : Ops} {shape : Shape} (h : ops.Matches shape) (s : State) (address : Word) :
    touchedBy (ops.elements s address) ⊆ addressRange address (4 * shape.ebytes) := by
  intro w hw
  obtain ⟨e, he, hwe⟩ := List.mem_flatMap.mp hw
  obtain ⟨k, hk, rfl⟩ := List.mem_map.mp he
  obtain ⟨j, hj, rfl⟩ := (mem_addressRange_element h).mp hwe
  refine mem_addressRange.mpr ⟨k * shape.ebytes + j, ?_, rfl⟩
  calc k * shape.ebytes + j < (k + 1) * shape.ebytes := by rw [Nat.succ_mul]; omega
    _ ≤ 4 * shape.ebytes := Nat.mul_le_mul_right _ (List.mem_range.mp hk)

/-- The frame of the stores, admitted or not: only bytes that the elements touch may differ. -/
theorem frame_of_touched {i : Instr} {shape : Shape} {s t : State} {es post : List Element} (hexec : Executable i shape)
    (hsplit : (opsAt i shape).elements s (baseAddress i s) = es ++ post) (hsys : SystemUnchanged s t) (hgpr : t.gpr = s.gpr)
    (hdreg : t.dreg = s.dreg)
    (hmem : ∀ x, (∀ w ∈ touchedBy es, w.toNat ≠ x) → Memory.read t.mem x = Memory.read s.mem x) : Frame i s t where
  system := hsys
  gprs   := fun r _ => State.readGpr_congr hgpr r
  dregs  := fun _ => hdreg
  list   := fun _ _ r _ => State.readDreg_congr hdreg r
  memory := fun a ha => hmem a fun w hw => by
    have hall : w ∈ touchedBy ((opsAt i shape).elements s (baseAddress i s)) := by
      rw [hsplit, touchedBy, List.flatMap_append]
      exact List.mem_append_left _ hw
    exact ha.toNat_ne hexec.row w (touchedBy_elements_subset (opsAt_matches i shape) s _ hall)

theorem frame_writeElements {i : Instr} {shape : Shape} {s : State} (hexec : Executable i shape) :
    Frame i s (s.withMem (writeElements s.mem ((opsAt i shape).elements s (baseAddress i s)))) :=
  frame_of_touched hexec (List.append_nil _).symm ⟨rfl, rfl, rfl, rfl⟩ rfl rfl fun _ hx => writeElements_read_other _ hx

theorem frame_abortedBytes {i : Instr} {shape : Shape} {s : State} {pre post : List Element} (hexec : Executable i shape)
    (hsplit : (opsAt i shape).elements s (baseAddress i s) = pre ++ post) : Frame i s (s.unknownBytes (touchedBy pre)) :=
  have hsame := s.unknownBytes_same (touchedBy pre)
  frame_of_touched hexec hsplit ⟨hsame.el, hsame.dit, hsame.simd, hsame.launch⟩ hsame.gpr hsame.dreg
    fun _ hx => State.unknownBytes_read_other s hx

/-- The frame of the `Unknown` row: its bytes are those of the structure, its D registers those of the list (rule R154). -/
theorem frame_unknownStorage {i : Instr} {shape : Shape} {s : State} (hlist : ListPastEnd i shape)
    (hcu : s.launch.cuD4 = .unknown) : Frame i s ((opsAt i shape).unknownStorage s) where
  system := have h := (opsAt i shape).unknownStorage_same s; ⟨h.el, h.dit, h.simd, h.launch⟩
  gprs   := fun r _ => State.readGpr_congr ((opsAt i shape).unknownStorage_same s).gpr r
  dregs  := fun hrow => absurd ⟨⟨shape, hlist⟩, hcu⟩ hrow
  list   := fun shape' hlist' r hr => by
    cases row_unique hlist.row hlist'.row
    refine Ops.unknownStorage_readDreg_other _ s fun hmem => ?_
    obtain ⟨k, hk, hkr⟩ := List.mem_map.mp hmem
    exact hr k (List.mem_range.mp hk) hkr
  memory := fun a ha => Ops.unknownStorage_read_other _ s (ha.toNat_ne hlist.row)

/-- The frame of every instruction that completes (rule R162). -/
theorem exec_next_frame {i : Instr} {s t : State} (h : exec i s = .next t) : Frame i s t := by
  cases exec_next_completion h with
  | skipped _ _ ht => exact ht ▸ (Frame.refl i s).retire _
  | stored hexec _ _ hdone => exact hdone.result ▸ ((frame_writeElements hexec).writeback _).retire _
  | nop _ _ _ ht => exact ht ▸ (Frame.refl i s).retire _
  | unknownRow hlist _ hcu _ hrow =>
    rw [(unknownList_next_iff.mp hrow).2]
    exact (((frame_unknownStorage hlist hcu).countDraw).unknownBase _).retire _

/-- The frame of every raise, and the pc and all general-purpose registers as before it (rule R162). -/
theorem exec_raise_frame {i : Instr} {s r : State} {f : Fault} (h : exec i s = .fault f) (hr : f.atRaise? = some r) :
    Frame i s r ∧ r.pc = s.pc ∧ r.gpr = s.gpr := by
  cases exec_fault_raiseState h hr with
  | unchanged hrs =>
    rw [hrs]
    exact ⟨Frame.refl i s, rfl, rfl⟩
  | @aborted _ pre _ hexec hsplit hrs =>
    have hsame := s.unknownBytes_same (touchedBy pre)
    exact hrs ▸ ⟨frame_abortedBytes hexec hsplit, hsame.pc, hsame.gpr⟩
  | @unknownRow shape hlist hcu hrs =>
    have hsame := (opsAt i shape).unknownStorage_same s
    exact hrs ▸ ⟨(frame_unknownStorage hlist hcu).countDraw, hsame.pc, hsame.gpr⟩

/-- The Offset form leaves every general-purpose register (rules R160, R162). -/
theorem exec_next_gpr_of_offset {i : Instr} {s t : State} (h : exec i s = .next t) (hrm : i.fields.rm = 15#4) : t.gpr = s.gpr := by
  have hwback (shape : Shape) : (opsAt i shape).wback = false := bne_eq_false_iff_eq.mpr hrm
  cases exec_next_completion h with
  | skipped _ _ ht => simp [ht]
  | stored _ _ _ hdone => simp [hdone.result, Ops.writeback, hwback]
  | nop _ _ _ ht => simp [ht]
  | @unknownRow shape _ _ _ _ hrow =>
    simp [(unknownList_next_iff.mp hrow).2, Ops.unknownBase, hwback, ((opsAt i shape).unknownStorage_same s).gpr]

/-- Retiring a state whose pc and answers are still those of the start advances the start (rule R161). -/
theorem advanced_retire {s u : State} (hpc : u.pc = s.pc) (hcond : u.condAnswers = s.condAnswers) (iset : ISet) :
    Advanced iset s (u.retire iset) where
  pc          := by rw [State.retire_pc, hpc]
  condAnswers := by rw [(u.retire_advanced iset).condAnswers, hcond]

/-- Every instruction that completes advances (rules R25, R161; log 4). -/
theorem exec_next_advanced {i : Instr} {s t : State} (h : exec i s = .next t) : Advanced i.iset s t := by
  cases exec_next_completion h with
  | skipped _ _ ht => exact ht ▸ s.retire_advanced _
  | stored _ _ _ hdone => exact hdone.result ▸ advanced_retire (by simp) (by simp) _
  | nop _ _ _ ht => exact ht ▸ s.retire_advanced _
  | @unknownRow shape _ _ _ _ hrow =>
    have hsame := (opsAt i shape).unknownStorage_same s
    rw [(unknownList_next_iff.mp hrow).2]
    exact advanced_retire (by simp [hsame.pc]) (by simp [hsame.condAnswers]) _

/-! ## Runs -/

theorem runs_zero {s t : State} (h : Runs 0 s t) : t = s := by
  cases h
  rfl

/-- A run of one step more that ends in a next state is a step, then a run. -/
theorem run_succ_next {M : Host.Core} {n : Nat} {s t : M.State} (h : M.run (n + 1) s = .next t) :
    ∃ u, M.step s = .next u ∧ M.run n u = .next t := by
  unfold Host.Core.run at h
  split at h
  · rename_i u hstep
    exact ⟨u, hstep, h⟩
  · cases h
  · cases h

theorem runs_succ {n : Nat} {s t : State} (h : Runs (n + 1) s t) : ∃ u, step s = .next u ∧ Runs n u t :=
  run_succ_next (M := core) h

theorem SystemUnchanged.trans {s u t : State} (h : SystemUnchanged s u) (h' : SystemUnchanged u t) : SystemUnchanged s t :=
  ⟨h'.el.trans h.el, h'.dit.trans h.dit, h'.simd.trans h.simd, h'.launch.trans h.launch⟩

/-- A step that answers a next state advances the pc and leaves the system state. -/
theorem step_next_straight {s t : State} (h : step s = .next t) : t.pc = s.pc + 4#32 ∧ SystemUnchanged s t := by
  obtain ⟨-, -, i, -, -, -, hexec⟩ := step_next h
  exact ⟨(exec_next_advanced hexec).pc, (exec_next_frame hexec).system⟩

/-! ## What an instruction does not read -/

/-- Byte writes one after the other, each an address and the byte that goes to it. -/
def Memory.writeAll (m : Memory) (ws : List Host.Cell) : Memory := ws.foldl (fun m w => Memory.write m w.1 w.2) m

theorem Memory.writeAll_append (m : Memory) (ws vs : List Host.Cell) :
    Memory.writeAll m (ws ++ vs) = Memory.writeAll (Memory.writeAll m ws) vs :=
  List.foldl_append

/-- The same writes to two memories leave at each address the same byte, or each memory's own (rule R164). -/
theorem Memory.read_writeAll_alike (m m' : Memory) (ws : List Host.Cell) (a : Nat) :
    Memory.read (Memory.writeAll m' ws) a = Memory.read (Memory.writeAll m ws) a ∨
      Memory.read (Memory.writeAll m' ws) a = Memory.read m' a ∧ Memory.read (Memory.writeAll m ws) a = Memory.read m a := by
  induction ws generalizing m m' with
  | nil => exact .inr ⟨rfl, rfl⟩
  | cons w ws ih =>
    rcases ih (Memory.write m w.1 w.2) (Memory.write m' w.1 w.2) with halike | ⟨hown', hown⟩
    · exact .inl halike
    · by_cases ha : w.1 = a
      · refine .inl (hown'.trans (.trans ?_ hown.symm))
        rw [ha, Memory.read_write_same, Memory.read_write_same]
      · exact .inr ⟨hown'.trans (Memory.read_write_other m' ha _), hown.trans (Memory.read_write_other m ha _)⟩

/-- Bytes stored are the same writes whatever memory they go to. -/
theorem Memory.writeBytes_eq_writeAll (addr : Word) (bs : List Byte) :
    ∃ ws, ∀ m, Memory.writeBytes m addr bs = Memory.writeAll m ws := by
  induction bs generalizing addr with
  | nil => exact ⟨[], fun _ => rfl⟩
  | cons b bs ih =>
    obtain ⟨ws, hws⟩ := ih (addr + 1#32)
    exact ⟨(addr.toNat, b) :: ws, fun m => hws _⟩

theorem writeElements_eq_writeAll (es : List Element) : ∃ ws, ∀ m, writeElements m es = Memory.writeAll m ws := by
  induction es with
  | nil => exact ⟨[], fun _ => rfl⟩
  | cons e es ih =>
    obtain ⟨vs, hvs⟩ := Memory.writeBytes_eq_writeAll e.addr e.bytes
    obtain ⟨ws, hws⟩ := ih
    exact ⟨vs ++ ws, fun m => by rw [writeElements, hws, hvs, Memory.writeAll_append]⟩

/-- The parts of the state that an instruction reads only through `MemAdmit` and its condition (rules R26, R164, R193, R216). -/
structure Unread where
  mem         : Memory
  el          : EL
  dit         : Bool
  condAnswers : List Bool

/-- The state with other such parts. -/
def State.withUnread (s : State) (u : Unread) : State :=
  { s with mem := u.mem, el := u.el, dit := u.dit, condAnswers := u.condAnswers }

def Unread.written (u : Unread) (ws : List Host.Cell) : Unread := { u with mem := Memory.writeAll u.mem ws }

theorem Unread.written_append (u : Unread) (ws vs : List Host.Cell) : u.written (ws ++ vs) = (u.written ws).written vs := by
  rw [Unread.written, Memory.writeAll_append]
  rfl

/-- The unread parts after a completed instruction: some bytes written, and in T32 the launch's answer used up. -/
def Unread.after (u : Unread) (iset : ISet) (ws : List Host.Cell) : Unread :=
  { u.written ws with condAnswers := answersAfter iset u.condAnswers }

/-- From this state, whatever its unread parts, an operation makes the same byte writes and otherwise the same change. -/
def Oblivious (f : State → State) (s : State) : Prop :=
  ∃ ws, (f s).mem = Memory.writeAll s.mem ws ∧ ∀ u, f (s.withUnread u) = (f s).withUnread (u.written ws)

theorem Oblivious.comp {f g : State → State} {s : State} (hg : Oblivious g (f s)) (hf : Oblivious f s) :
    Oblivious (fun s => g (f s)) s := by
  obtain ⟨ws, hws, hfu⟩ := hf
  obtain ⟨vs, hvs, hgu⟩ := hg
  refine ⟨ws ++ vs, by rw [hvs, hws, Memory.writeAll_append], fun u => ?_⟩
  rw [Unread.written_append]
  exact (congrArg g (hfu u)).trans (hgu _)

/-- An operation that leaves memory alone and commutes with a change of the unread parts. -/
theorem oblivious_of_commutes {f : State → State} {s : State} (hmem : (f s).mem = s.mem)
    (hu : ∀ u, f (s.withUnread u) = (f s).withUnread u) : Oblivious f s := ⟨[], hmem, hu⟩

theorem oblivious_unknownByte (a : Word) (s : State) : Oblivious (State.unknownByte · a) s := by
  by_cases ha : s.inLaunchMemory a = true
  · have hwrite (t : State) (ht : t.inLaunchMemory a = true) : t.unknownByte a =
        t.countDraw.withMem (Memory.write t.mem a.toNat (Config.freeByte t.draws)) := if_pos ht
    refine ⟨[(a.toNat, Config.freeByte s.draws)], ?_, fun u => ?_⟩
    · simp only [hwrite s ha]
      rfl
    · simp only [hwrite s ha, hwrite (s.withUnread u) ha]
      rfl
  · have hskip (t : State) (ht : ¬ t.inLaunchMemory a = true) : t.unknownByte a = t.countDraw := if_neg ht
    refine oblivious_of_commutes ?_ fun u => ?_
    · simp only [hskip s ha]
      rfl
    · simp only [hskip s ha, hskip (s.withUnread u) ha]
      rfl

theorem oblivious_unknownBytes (l : List Word) (s : State) : Oblivious (State.unknownBytes · l) s := by
  induction l generalizing s with
  | nil => exact oblivious_of_commutes rfl fun _ => rfl
  | cons a rest ih => exact (ih (s.unknownByte a)).comp (oblivious_unknownByte a s)

theorem State.writeDreg_withUnread (s : State) (u : Unread) (i : Nat) (v : Dword) :
    (s.withUnread u).writeDreg i v = (s.writeDreg i v).withUnread u := by
  unfold State.writeDreg
  split <;> rfl

theorem State.unknownDregs_withUnread (s : State) (u : Unread) (l : List Nat) :
    (s.withUnread u).unknownDregs l = (s.unknownDregs l).withUnread u := by
  induction l generalizing s with
  | nil => rfl
  | cons i rest ih =>
    rw [State.unknownDregs, State.unknownDregs, ← ih, State.writeDreg_withUnread]
    rfl

theorem oblivious_unknownStorage (ops : Ops) (s : State) : Oblivious ops.unknownStorage s := by
  obtain ⟨ws, hws, hu⟩ := oblivious_unknownBytes (addressRange (s.readGpr ops.n) (4 * ops.ebytes)) s
  refine ⟨ws, (State.unknownDregs_same _ _).mem.trans hws, fun u => ?_⟩
  exact (congrArg (State.unknownDregs · ops.regs) (hu u)).trans (State.unknownDregs_withUnread _ _ _)

/-- The change that the `Unknown` row makes before it retires. -/
theorem oblivious_unknownRow (ops : Ops) (s : State) : Oblivious (fun s => ops.unknownBase (ops.unknownStorage s).countDraw) s := by
  have hbase : Oblivious (fun s => ops.unknownBase s.countDraw) (ops.unknownStorage s) :=
    oblivious_of_commutes (by simp) fun u => by
      unfold Ops.unknownBase
      split <;> rfl
  exact hbase.comp (oblivious_unknownStorage ops s)

/-- The change that four admitted stores and the writeback make. -/
theorem oblivious_stores (ops : Ops) (s : State) :
    Oblivious (fun s => ops.writeback (s.withMem (writeElements s.mem (ops.elements s (s.readGpr ops.n))))) s := by
  obtain ⟨ws, hws⟩ := writeElements_eq_writeAll (ops.elements s (s.readGpr ops.n))
  refine ⟨ws, by simp [hws], fun u => ?_⟩
  have hstored : (s.withUnread u).withMem (writeElements u.mem (ops.elements s (s.readGpr ops.n))) =
      (s.withMem (writeElements s.mem (ops.elements s (s.readGpr ops.n)))).withUnread (u.written ws) := by
    rw [hws]
    rfl
  refine (congrArg ops.writeback hstored).trans ?_
  unfold Ops.writeback
  split <;> rfl

theorem State.retire_withUnread (s : State) (u : Unread) (iset : ISet) (ws : List Host.Cell) :
    (s.withUnread (u.written ws)).retire iset = (s.retire iset).withUnread (u.after iset ws) := by
  cases iset <;> rfl

/-- An oblivious operation that retires, from the state with other unread parts. -/
theorem Oblivious.retire {f : State → State} {s : State} (h : Oblivious f s) (iset : ISet) :
    ∃ ws, ((f s).retire iset).mem = Memory.writeAll s.mem ws ∧
      ∀ u, (f (s.withUnread u)).retire iset = ((f s).retire iset).withUnread (u.after iset ws) := by
  obtain ⟨ws, hws, hu⟩ := h
  refine ⟨ws, by rw [State.retire_mem, hws], fun u => ?_⟩
  rw [hu, State.retire_withUnread]

/-- `MemAdmit` answers alike with other unread parts, after whatever byte writes. -/
def AdmitsAlike (s : State) (u : Unread) : Prop :=
  ∀ ws addr size, ((s.withUnread u).withMem (Memory.writeAll u.mem ws)).memAdmit (s.withUnread u).accDesc addr size =
    (s.withMem (Memory.writeAll s.mem ws)).memAdmit s.accDesc addr size

theorem AdmitsAlike.allAdmitted {s : State} {u : Unread} (h : AdmitsAlike s u) {es : List Element} (ws : List Host.Cell)
    (hes : AllAdmitted s (Memory.writeAll s.mem ws) es) : AllAdmitted (s.withUnread u) (Memory.writeAll u.mem ws) es := by
  induction es generalizing ws with
  | nil => trivial
  | cons e es ih =>
    obtain ⟨⟨hadmits, hlaunch⟩, hrest⟩ := hes
    obtain ⟨vs, hvs⟩ := Memory.writeBytes_eq_writeAll e.addr e.bytes
    rw [hvs, ← Memory.writeAll_append] at hrest
    refine ⟨⟨(h ws _ _).trans hadmits, hlaunch⟩, ?_⟩
    rw [hvs, ← Memory.writeAll_append]
    exact ih (ws ++ vs) hrest

/-- The checks before the stores and the stores themselves come out alike with other unread parts. -/
theorem Completed.withUnread {iset : ISet} {ops : Ops} {s t : State} {u : Unread} (h : Completed iset ops s t)
    (hadmit : AdmitsAlike s u) :
    storeChecked iset ops (s.withUnread u) = .next ((ops.writeback ((s.withUnread u).withMem
      (writeElements u.mem (ops.elements (s.withUnread u) ((s.withUnread u).readGpr ops.n))))).retire iset) :=
  storeChecked_of_completed
    ⟨h.aligned, h.littleEndian, h.noWrap, h.outsideText, hadmit.allAdmitted [] h.admitted, rfl⟩

/-- An instruction that only retires does so alike with other unread parts. -/
theorem exec_withUnread_of_retire {i : Instr} {s t : State} {u : Unread}
    (hother : exec i (s.withUnread u) = .next ((s.withUnread u).retire i.iset)) (ht : t = s.retire i.iset) :
    ∃ ws, t.mem = Memory.writeAll s.mem ws ∧ exec i (s.withUnread u) = .next (t.withUnread (u.after i.iset ws)) := by
  refine ⟨[], by rw [ht, State.retire_mem]; rfl, ?_⟩
  rw [hother, ht, ← State.retire_withUnread]
  rfl

/-- An instruction that completes does so alike with other unread parts, where its condition and `MemAdmit` answer alike: it makes
the same byte writes, and otherwise the same change. -/
theorem exec_next_withUnread {i : Instr} {s t : State} {u : Unread} (h : exec i s = .next t)
    (hcond : (s.withUnread u).conditionPassed i.iset = s.conditionPassed i.iset) (hadmit : AdmitsAlike s u) :
    ∃ ws, t.mem = Memory.writeAll s.mem ws ∧ exec i (s.withUnread u) = .next (t.withUnread (u.after i.iset ws)) := by
  cases exec_next_completion h with
  | skipped hexec hfail ht => exact exec_withUnread_of_retire (exec_of_condition_failed hexec (hcond.trans hfail)) ht
  | @stored shape hexec hpass hunit hdone =>
    obtain ⟨ws, hmem, hu⟩ := (oblivious_stores (opsAt i shape) s).retire i.iset
    refine ⟨ws, hdone.result ▸ hmem, (exec_eq_storeChecked hexec (hcond.trans hpass) hunit).trans ?_⟩
    rw [hdone.withUnread hadmit, hdone.result, ← hu u]
    rfl
  | nop hlist hpass hcu ht => exact exec_withUnread_of_retire (exec_of_nop hlist (hcond.trans hpass) hcu) ht
  | @unknownRow shape hlist hpass hcu hunit hrow =>
    obtain ⟨hend, ht⟩ := unknownList_next_iff.mp hrow
    obtain ⟨ws, hmem, hu⟩ := (oblivious_unknownRow (opsAt i shape) s).retire i.iset
    obtain ⟨_, -, hstorage⟩ := oblivious_unknownStorage (opsAt i shape) s
    refine ⟨ws, ht ▸ hmem, ?_⟩
    rw [exec_eq_whenEnabled_unknownList hlist (hcond.trans hpass) hcu, whenEnabled_of_enabled (s := s.withUnread u) hunit, ht,
      ← hu u]
    exact unknownList_next_iff.mpr ⟨by rw [hstorage u]; exact hend, rfl⟩

/-- A test of `MemAdmit` looks at the registers, the pc, data memory and the context of the enable check only (log 14). -/
theorem State.passes_congr {s t : State} (hgpr : t.gpr = s.gpr) (hdreg : t.dreg = s.dreg) (hpc : t.pc = s.pc) (hmem : t.mem = s.mem)
    (hsimd : t.simd = s.simd) (test : StateTest) : t.passes test = s.passes test := by
  induction test with
  | always => rfl
  | gprIs i v => rw [State.passes, State.readGpr_congr hgpr, State.passes]
  | dregIs i v => rw [State.passes, State.readDreg_congr hdreg, State.passes]
  | pcIs v => rw [State.passes, hpc, State.passes]
  | byteIs a v => rw [State.passes, State.readByte, hmem, State.passes, State.readByte]
  | simdIs c => rw [State.passes, hsimd, State.passes]
  | negated test ih => rw [State.passes, ih, State.passes]
  | both test test' ih ih' => rw [State.passes, ih, ih', State.passes]

/-- With other unread parts but the same data memory, `MemAdmit` answers each access as before. -/
theorem State.memAdmit_withUnread (s : State) (u : Unread) (m : Memory) (acc : AccDesc) (addr : Word) (size : Nat) :
    ((s.withUnread u).withMem m).memAdmit acc addr size = (s.withMem m).memAdmit acc addr size := by
  have hpasses (test : StateTest) : ((s.withUnread u).withMem m).passes test = (s.withMem m).passes test :=
    State.passes_congr (s := s.withMem m) (t := (s.withUnread u).withMem m) rfl rfl rfl rfl rfl test
  simp only [State.memAdmit, hpasses]
  rfl

theorem State.withUnread_eq_withMem {t : State} {u : Unread} (hel : u.el = t.el) (hdit : u.dit = t.dit)
    (hcond : u.condAnswers = t.condAnswers) : t.withUnread u = t.withMem u.mem := by
  rw [State.withUnread, hel, hdit, hcond]
  rfl

theorem State.withUnread_eq_withAnswers {t : State} {u : Unread} (hmem : u.mem = t.mem) (hel : u.el = t.el) (hdit : u.dit = t.dit) :
    t.withUnread u = { t with condAnswers := u.condAnswers } := by
  rw [State.withUnread, hmem, hel, hdit]

/-! ## The obligations -/

/-- Settles O43, by induction on the number of steps: each step advances by 4, leaves the system state and keeps the invariant. -/
theorem runAdvancesStraightLine : Obligations.RunAdvancesStraightLine := by
  intro n
  induction n with
  | zero =>
    intro s t h
    cases runs_zero h
    exact ⟨by simp, ⟨rfl, rfl, rfl, rfl⟩, id⟩
  | succ n ih =>
    intro s t h
    obtain ⟨u, hstep, hrest⟩ := runs_succ h
    obtain ⟨hpc, hsys⟩ := step_next_straight hstep
    obtain ⟨hpcs, hsyss, hinv⟩ := ih u t hrest
    refine ⟨?_, hsys.trans hsyss, fun hs => hinv (stepKeepsInvariant s u hs hstep)⟩
    rw [hpcs, hpc, BitVec.add_assoc, ← BitVec.ofNat_add, Nat.mul_succ, Nat.add_comm]

/-- Settles O17, by `exec_completes` of the instruction that the fetched bytes decode to. -/
theorem stepClosedForm : Obligations.StepClosedForm := by
  intro i shape s bytes rest haligned hbytes hdecode hexec hcond hcan
  rw [step_of_decode_ok haligned hbytes hdecode]
  exact exec_completes hexec hcond hcan

/-- Settles O19: a skipped T32 instruction only retires, and the condition of an A32 instruction does not look at the answers. -/
theorem failedConditionOnlyAdvances : Obligations.FailedConditionOnlyAdvances := by
  refine ⟨fun i shape s hset hexec hhead => ?_, fun i s t answers hset h => ?_⟩
  · have hfail : s.conditionPassed i.iset = false := by
      rw [hset, State.conditionPassed, List.headD_eq_head?_getD, hhead]
      rfl
    rw [exec_of_condition_failed hexec hfail, hset]
    rfl
  · have hpass (r : State) : r.conditionPassed i.iset = true := by rw [hset, State.conditionPassed_a32]
    obtain ⟨ws, hmem, hother⟩ := exec_next_withUnread (u := ⟨s.mem, s.el, s.dit, answers⟩) h ((hpass _).trans (hpass s).symm)
      fun ws addr size => s.memAdmit_withUnread _ _ _ addr size
    obtain ⟨hel, hdit, -, -⟩ := (exec_next_frame h).system
    refine hother.trans ?_
    rw [State.withUnread_eq_withAnswers hmem.symm hel.symm hdit.symm, hset]
    rfl

/-- Settles O25: the frame of a completion, read at the one row of the table that the encoding selects. -/
theorem unknownListFrame : Obligations.UnknownListFrame := by
  intro i shape s hlist hcond hcu
  have hexec := exec_eq_whenEnabled_unknownList hlist hcond hcu
  refine ⟨fun hunit => hexec.trans (whenEnabled_of_undef hunit), fun hunit => hexec.trans (whenEnabled_of_hypTrap hunit),
    fun hunit => ?_⟩
  rcases unknownList_cases i.iset (opsAt i shape) s with ⟨t, hrow⟩ | ⟨a, r, hrow⟩
  · have hnext : exec i s = .next t := hexec.trans ((whenEnabled_of_enabled hunit).trans hrow)
    have hframe := exec_next_frame hnext
    refine .inr ⟨t, hnext, hframe.system, exec_next_advanced hnext, fun a ha => hframe.memory a ?_, hframe.list shape hlist,
      fun r hr => ?_⟩
    · intro sz shape' hsz hshape'
      rwa [row_unique hlist.row ⟨sz, hsz, hshape'⟩]
    · exact hr.elim (hframe.gprs r) fun hrm => State.readGpr_congr (exec_next_gpr_of_offset hnext hrm) r
  · exact .inl ⟨a, r, hexec.trans ((whenEnabled_of_enabled hunit).trans hrow)⟩

/-- Settles O26: the enable check comes before the store path, which holds every access. -/
theorem disabledUnitRaisesBeforeAccess : Obligations.DisabledUnitRaisesBeforeAccess := by
  intro i shape s hexec hcond
  rw [exec_eq_whenEnabled_storeChecked hexec hcond]
  exact ⟨whenEnabled_of_undef, whenEnabled_of_hypTrap⟩

/-- Settles O27: the alignment test comes first of the checks, and with alignment 1 it always passes. -/
theorem misalignedBaseRaisesAlignmentFault : Obligations.MisalignedBaseRaisesAlignmentFault := by
  intro i shape s hexec hcond hunit hodd
  obtain ⟨sz, -, hshape⟩ := hexec.row
  have hpos := alignment_pos_of_tableShape hshape
  constructor
  · by_contra hle
    have hone : shape.alignment = 1 := by omega
    rw [hone, Nat.mod_one] at hodd
    exact hodd rfl
  · have hmis : (opsAt i shape).misaligned s (baseAddress i s) = true :=
      Bool.ne_false_iff.mp fun h => hodd (opsAt_misaligned_eq_false_iff.mp h).1
    rw [exec_eq_storeChecked hexec hcond hunit, storeChecked_of_misaligned hmis, State.accDesc_eq, zero_append_eq_setWidth]
    rfl

/-- Settles O29: the three refusals in the order of the checks, once the alignment test has passed. -/
theorem refusalsBeforeAnyStore : Obligations.RefusalsBeforeAnyStore := by
  intro i shape s hexec hcond hunit halign helem
  have haligned : (opsAt i shape).misaligned s (baseAddress i s) = false := opsAt_misaligned_eq_false_iff.mpr ⟨halign, helem⟩
  rw [exec_eq_storeChecked hexec hcond hunit]
  exact ⟨storeChecked_of_bigEndian haligned, storeChecked_of_wrap haligned,
    fun hlittle hfits htext => storeChecked_of_meetsText haligned hlittle hfits (State.meetsText_iff.mpr htext)⟩

/-- Settles O36, by the frame and the advance of every completion. -/
theorem everyCompletionKeepsSystemState : Obligations.EveryCompletionKeepsSystemState :=
  fun _ _ _ h => ⟨(exec_next_frame h).system, exec_next_advanced h⟩

/-- Settles O37, by `exec_next_frame` and `exec_raise_frame`; the Offset form writes nothing back. -/
theorem registerAndMemoryFrame : Obligations.RegisterAndMemoryFrame := by
  refine fun i s => ⟨fun t h => ?_, fun r h => ?_⟩
  · obtain ⟨hsys, hgprs, hdregs, hlist, hmem⟩ := exec_next_frame h
    exact ⟨⟨hsys, hgprs, hdregs, hlist, hmem⟩, fun hrm _ => exec_next_gpr_of_offset h hrm⟩
  · have hraise : Frame i s r ∧ r.pc = s.pc ∧ r.gpr = s.gpr := by
      rcases h with ⟨pc, w, h⟩ | ⟨pc, w, h⟩ | ⟨a, h⟩
      · exact exec_raise_frame h rfl
      · exact exec_raise_frame h rfl
      · exact exec_raise_frame h rfl
    obtain ⟨⟨hsys, hgprs, hdregs, hlist, hmem⟩, hpc, hgpr⟩ := hraise
    exact ⟨⟨hsys, hgprs, hdregs, hlist, hmem⟩, hpc, hgpr⟩

/-- Settles O38, by `exec_next_withUnread`: the two runs make the same byte writes. -/
theorem dataMemoryIsNotRead : Obligations.DataMemoryIsNotRead := by
  intro i s t m hadmit h
  obtain ⟨ws, hmem, hother⟩ := exec_next_withUnread (u := ⟨m, s.el, s.dit, s.condAnswers⟩) h rfl
    fun _ _ _ => (hadmit _ _ _ _).trans (hadmit _ _ _ _).symm
  obtain ⟨hel, hdit, -, -⟩ := (exec_next_frame h).system
  refine ⟨Memory.writeAll m ws, hother.trans ?_, fun a => ?_⟩
  · rw [State.withUnread_eq_withMem hel.symm hdit.symm (exec_next_advanced h).condAnswers.symm]
    rfl
  · rw [hmem]
    exact Memory.read_writeAll_alike s.mem m ws a

/-- Settles O7, by `step_of_decode_ok`, the alignment in the words of rule R25. -/
theorem stepRunsDecodedInstruction : Obligations.StepRunsDecodedInstruction :=
  fun _ _ _ _ haligned hbytes hdecode _ => step_of_decode_ok (State.pcAligned_iff.mpr haligned) hbytes hdecode

end Sys2Proof.Machine

/-! SUPPORT. Proofs of the family 60_exceptions.md: what raises each exception, what the Exception level acts on, and restarting an
instruction after an abort. First the rules they need. -/

namespace Sys2Proof.Machine

/-! ## The encodings that decode to no operands -/

theorem decodeResult_undef_iff {i : Instr} : decodeResult i = .undef ↔ elemSize i = none ∨ reservedEncoding i = true := by
  rw [← tableRow_eq_none_iff]
  constructor
  · intro h
    by_contra hrow
    obtain ⟨shape, hshape⟩ := Option.ne_none_iff_exists'.mp hrow
    rw [decodeResult_of_row hshape] at h
    split at h
    · cases h
    split at h <;> cases h
  · exact decodeResult_of_no_row

/-- A word that is UNDEFINED or UNPREDICTABLE is not an executable encoding (rules R89 to R92). -/
theorem not_executable_of_bad {i : Instr}
    (h : elemSize i = none ∨ reservedEncoding i = true ∨ i.fields.rn = 15#4 ∨ ∃ shape, ListPastEnd i shape) (shape : Shape) :
    ¬ Executable i shape := by
  intro hexec
  rw [← or_assoc, ← tableRow_eq_none_iff] at h
  rcases h with hrow | hbase | ⟨shape', hlist⟩
  · exact Option.some_ne_none shape ((tableRow_eq_some_iff.mpr hexec.row).symm.trans hrow)
  · exact hexec.base hbase
  · cases row_unique hexec.row hlist.row
    exact Nat.not_lt.mpr hexec.list hlist.list

/-- A failing condition on a word that is not executable is refused (rule R188). -/
theorem exec_of_condition_failed_of_not_executable {i : Instr} {s : State} (hcond : s.conditionPassed i.iset = false)
    (h : ∀ shape, ¬ Executable i shape) : exec i s = .refused .condFailedOnBadEncoding := by
  rw [exec_eq_execute]
  unfold execute
  rw [if_neg (Bool.eq_false_iff.mp hcond)]
  split
  · rename_i hr
    obtain ⟨shape, hexec, -⟩ := decodeResult_ok_iff.mp hr
    exact absurd hexec (h shape)
  · rfl
  · rfl
  · rfl

/-- A T32 instruction whose next answer is FALSE fails its condition (rules R26, R151). -/
theorem condition_failed_of_head {iset : ISet} {s : State} (hset : iset = .t32) (hhead : s.condAnswers.head? = some false) :
    s.conditionPassed iset = false := by
  rw [hset, State.conditionPassed, List.headD_eq_head?_getD, hhead]
  rfl

/-! ## The causes of a fault -/

/-- The three ends of the enable check, for a fault (rule R30). -/
theorem whenEnabled_fault_cases {word : Word} {s : State} {k : State → Out} {f : Fault} (h : whenEnabled word s k = .fault f) :
    (s.advSimdCheck = .undef ∧ f = .undefinedInstruction s.pc word s) ∨ (s.advSimdCheck = .hypTrap ∧ f = .hypTrap s.pc word s) ∨
    (s.advSimdCheck = .enabled ∧ k s = .fault f) := by
  cases hunit : s.advSimdCheck with
  | undef =>
    cases (whenEnabled_of_undef hunit).symm.trans h
    exact .inl ⟨rfl, rfl⟩
  | hypTrap =>
    cases (whenEnabled_of_hypTrap hunit).symm.trans h
    exact .inr (.inl ⟨rfl, rfl⟩)
  | enabled => exact .inr (.inr ⟨rfl, (whenEnabled_of_enabled hunit).symm.trans h⟩)

/-- Where an instruction comes to the enable check (rules R154, R155). -/
def ReachesEnableCheck (i : Instr) (s : State) : Prop := (∃ shape, Executable i shape) ∨ UnknownRow i s

/-- Every fault of an instruction, with what causes it and what it records: an UNDEFINED word, a list past D31, the enable check, the
store path, or the `Unknown` row (rules R58, R154, R180 to R183). -/
inductive FaultCause (i : Instr) (s : State) : Fault → Prop where
  | undefinedWord (hword : elemSize i = none ∨ reservedEncoding i = true) :
      FaultCause i s (.undefinedInstruction s.pc (encode i) s)
  | undefinedList {shape : Shape} (hlist : ListPastEnd i shape) (hcu : s.launch.cuD4 = .undef) :
      FaultCause i s (.undefinedInstruction s.pc (encode i) s)
  | unitUndefined (hreach : ReachesEnableCheck i s) (hunit : s.advSimdCheck = .undef) :
      FaultCause i s (.undefinedInstruction s.pc (encode i) s)
  | unitTrapped (hreach : ReachesEnableCheck i s) (hunit : s.advSimdCheck = .hypTrap) :
      FaultCause i s (.hypTrap s.pc (encode i) s)
  | misaligned {shape : Shape} (hexec : Executable i shape) (hunit : s.advSimdCheck = .enabled)
      (hmis : (opsAt i shape).misaligned s (baseAddress i s) = true) :
      FaultCause i s (.dataAbort (.alignmentFault s.accDesc ((baseAddress i s).setWidth 64)) s)
  | abortedStore {shape : Shape} {touched : List Word} {info : AbortInfo} (hexec : Executable i shape)
      (hunit : s.advSimdCheck = .enabled) : FaultCause i s (.dataAbort (.other info) (s.unknownBytes touched))
  | stuckStore {a : Word} : FaultCause i s (.outsideLaunchMemory a)
  | unknownRowMisaligned (hrow : UnknownRow i s) (hunit : s.advSimdCheck = .enabled) :
      FaultCause i s (.dataAbort (.alignmentFault s.accDesc ((baseAddress i s).setWidth 64)) s)
  | unknownRowAborted {r : State} {info : AbortInfo} (hrow : UnknownRow i s) : FaultCause i s (.dataAbort (.other info) r)

theorem storeChecked_faultCause {i : Instr} {shape : Shape} {s : State} {f : Fault} (hexec : Executable i shape)
    (hunit : s.advSimdCheck = .enabled) (h : storeChecked i.iset (opsAt i shape) s = .fault f) : FaultCause i s f := by
  unfold storeChecked at h
  dsimp only at h
  split at h
  · rename_i hmis
    cases h
    exact .misaligned hexec hunit hmis
  split at h
  · cases h
  split at h
  · cases h
  split at h
  · cases h
  unfold storeStructure at h
  split at h
  · cases h
  · cases h
    exact .abortedStore hexec hunit
  · cases h
    exact .stuckStore

theorem unknownList_faultCause {i : Instr} {shape : Shape} {s : State} {f : Fault} (hlist : ListPastEnd i shape)
    (hcu : s.launch.cuD4 = .unknown) (hunit : s.advSimdCheck = .enabled)
    (h : unknownList i.iset (opsAt i shape) s = .fault f) : FaultCause i s f := by
  unfold unknownList at h
  dsimp only at h
  split at h
  · cases h
  · cases h
    exact .unknownRowMisaligned ⟨⟨shape, hlist⟩, hcu⟩ hunit
  · cases h
    exact .unknownRowAborted ⟨⟨shape, hlist⟩, hcu⟩

/-- No instruction raises where its condition fails (rule R151). -/
theorem conditionPassed_of_exec_fault {i : Instr} {s : State} {f : Fault} (h : exec i s = .fault f) :
    s.conditionPassed i.iset = true := by
  by_contra hcond
  rw [exec_eq_execute] at h
  unfold execute at h
  rw [if_neg hcond] at h
  split at h <;> cases h

theorem exec_fault_cause {i : Instr} {s : State} {f : Fault} (h : exec i s = .fault f) : FaultCause i s f := by
  have hcond := conditionPassed_of_exec_fault h
  cases hr : decodeResult i with
  | undef =>
    cases (exec_of_undef hcond hr).symm.trans h
    exact .undefinedWord (decodeResult_undef_iff.mp hr)
  | unpredN15 =>
    rw [exec_eq_execute, hr, execute, if_pos hcond] at h
    cases h
  | cuD4 ops =>
    obtain ⟨shape, hlist, -⟩ := decodeResult_cuD4_iff.mp hr
    cases hcu : s.launch.cuD4 with
    | refuse =>
      rw [exec_eq_registerListPastEnd hlist hcond, registerListPastEnd, hcu] at h
      cases h
    | undef =>
      rw [exec_eq_registerListPastEnd hlist hcond, registerListPastEnd, hcu] at h
      cases h
      exact .undefinedList hlist hcu
    | nop => cases (exec_of_nop hlist hcond hcu).symm.trans h
    | unknown =>
      rw [exec_eq_whenEnabled_unknownList hlist hcond hcu] at h
      have hreach : ReachesEnableCheck i s := .inr ⟨⟨shape, hlist⟩, hcu⟩
      rcases whenEnabled_fault_cases h with ⟨hunit, rfl⟩ | ⟨hunit, rfl⟩ | ⟨hunit, hrow⟩
      · exact .unitUndefined hreach hunit
      · exact .unitTrapped hreach hunit
      · exact unknownList_faultCause hlist hcu hunit hrow
  | ok ops =>
    obtain ⟨shape, hexec, -⟩ := decodeResult_ok_iff.mp hr
    rw [exec_eq_whenEnabled_storeChecked hexec hcond] at h
    have hreach : ReachesEnableCheck i s := .inl ⟨shape, hexec⟩
    rcases whenEnabled_fault_cases h with ⟨hunit, rfl⟩ | ⟨hunit, rfl⟩ | ⟨hunit, hstore⟩
    · exact .unitUndefined hreach hunit
    · exact .unitTrapped hreach hunit
    · exact storeChecked_faultCause hexec hunit hstore

/-- The alignment test fails in the words of rules R52 and R53. -/
theorem opsAt_misaligned_iff {i : Instr} {shape : Shape} {s : State} {address : Word} :
    (opsAt i shape).misaligned s address = true ↔
    address.toNat % shape.alignment ≠ 0 ∨ (s.launch.strictElementAlign = true ∧ address.toNat % shape.ebytes ≠ 0) := by
  simp only [Ops.misaligned, opsAt, Bool.or_eq_true, Bool.and_eq_true, bne_iff_ne]

/-! ## The Exception level -/

/-- The descriptor of another Exception level differs in `privileged` alone, so `MemAdmit` answers alike where that bit does not
matter to it (rules R157, R193). -/
theorem admitsAlike_of_el {s : State} (h : ∀ m address size,
    (s.withMem m).memAdmit ⟨.store, .asimd, false, false, true⟩ address size =
      (s.withMem m).memAdmit ⟨.store, .asimd, false, false, false⟩ address size) (e : EL) :
    AdmitsAlike s ⟨s.mem, e, s.dit, s.condAnswers⟩ := by
  have hunprivileged (p : Bool) (m : Memory) (address : Word) (size : Nat) :
      (s.withMem m).memAdmit ⟨.store, .asimd, false, false, p⟩ address size =
        (s.withMem m).memAdmit ⟨.store, .asimd, false, false, false⟩ address size := by
    cases p with
    | false => rfl
    | true => exact h m address size
  intro ws address size
  rw [State.memAdmit_withUnread]
  exact (hunprivileged _ _ _ _).trans (hunprivileged _ _ _ _).symm

theorem State.withUnread_eq_withEl {t : State} {u : Unread} (hmem : u.mem = t.mem) (hdit : u.dit = t.dit)
    (hcond : u.condAnswers = t.condAnswers) : t.withUnread u = { t with el := u.el } := by
  rw [State.withUnread, hmem, hdit, hcond]

/-! ## Restarting after an abort -/

theorem SameButBytes.eq {s t : State} (h : SameButBytes s t) : t = { s with mem := t.mem, draws := t.draws } := by
  obtain ⟨hgpr, hdreg, hpc, hel, hdit, hsimd, hlaunch, hcond⟩ := h
  rw [← hgpr, ← hdreg, ← hpc, ← hel, ← hdit, ← hsimd, ← hlaunch, ← hcond]

/-- Where `MemAdmit` lists no abort, elements in `LaunchMemory` are admitted whatever memory holds (rule R58). -/
theorem allAdmitted_of_inLaunch {s : State} (hno : s.launch.memAdmit = []) {es : List Element}
    (hin : ∀ a ∈ touchedBy es, s.inLaunchMemory a = true) (m : Memory) : AllAdmitted s m es := by
  induction es generalizing m with
  | nil => trivial
  | cons e rest ih =>
    simp only [touchedBy, List.flatMap_cons, List.mem_append] at hin
    have hadmits : (s.withMem m).memAdmit s.accDesc e.addr e.bytes.length = none := by
      rw [State.memAdmit, State.withMem_launch, hno]
      rfl
    exact ⟨⟨hadmits, fun a ha => hin a (.inl ha)⟩, ih (fun a ha => hin a (.inr ha)) _⟩

/-- A store that completes where `MemAdmit` lists no abort completes so from any data memory. -/
theorem Completed.withMemory {iset : ISet} {ops : Ops} {s t : State} (h : Completed iset ops s t)
    (hno : s.launch.memAdmit = []) (m : Memory) (n : Nat) : ∃ t', Completed iset ops { s with mem := m, draws := n } t' :=
  ⟨_, h.aligned, h.littleEndian, h.noWrap, h.outsideText,
    allAdmitted_of_inLaunch (s := { s with mem := m, draws := n }) hno h.admitted.inLaunch m, rfl⟩

/-- A completed store has the whole effect of rule R165. -/
theorem Completed.storeEffect {i : Instr} {shape : Shape} {s t : State} (h : Completed i.iset (opsAt i shape) s t) :
    StoreEffect i shape s t (newBase i shape s) := by
  rw [h.result, Ops.elements, writeElements_first (opsAt_matches i shape)]
  exact storeEffect_of_noWrap h.noWrap

/-- The same structure stored into memories that agree outside it leaves memories that agree everywhere (rule R187). -/
theorem StructureStored.read_eq {s t s' t' : State} {address : Word} {shape : Shape} {d : Nat}
    (h : StructureStored s t address shape d) (h' : StructureStored s' t' address shape d) (hdreg : s'.dreg = s.dreg)
    (hmem : ∀ a, (a < address.toNat ∨ address.toNat + 4 * shape.ebytes ≤ a) → Memory.read s'.mem a = Memory.read s.mem a)
    (a : Nat) : Memory.read t'.mem a = Memory.read t.mem a := by
  by_cases hout : a < address.toNat ∨ address.toNat + 4 * shape.ebytes ≤ a
  · rw [h.others a hout, h'.others a hout, hmem a hout]
  · obtain ⟨b, rfl⟩ := Nat.exists_eq_add_of_le (by omega : address.toNat ≤ a)
    rw [h.stored b (by omega), h'.stored b (by omega), structureByte, structureByte, State.readDreg_congr hdreg]

/-- Two register files with the same value of one register and alike elsewhere. -/
theorem OnlyRegister.gpr_eq {s t s' t' : State} {n : Fin 16} {v : Word} (h : OnlyRegister s t n v)
    (h' : OnlyRegister s' t' n v) (hgpr : s'.gpr = s.gpr) : t'.gpr = t.gpr := by
  refine State.gpr_ext fun r => ?_
  by_cases hr : r = n
  · rw [hr, h.value, h'.value]
  · rw [h.others r hr, h'.others r hr, State.readGpr_congr hgpr]

/-- An address outside the structure, where the structure does not wrap. -/
theorem outsideStructure_of_noWrap {i : Instr} {shape : Shape} {s : State}
    (hrow : ∃ sz, elemSize i = some sz ∧ tableShape sz i.fields.ia = some shape)
    (hwrap : (baseAddress i s).toNat + 4 * shape.ebytes ≤ 2 ^ 32) {a : Nat}
    (ha : a < (baseAddress i s).toNat ∨ (baseAddress i s).toNat + 4 * shape.ebytes ≤ a) : OutsideStructure i s a := by
  intro sz shape' hsz hshape' b hb
  cases row_unique hrow ⟨sz, hsz, hshape'⟩
  rw [BitVec.toNat_add, BitVec.toNat_ofNat]
  omega

/-- An executable encoding that completes where `MemAdmit` lists no abort completes so from any data memory, each time with the
whole effect of rule R165; its structure does not wrap (rule R60). -/
theorem exec_next_withMemory {i : Instr} {shape : Shape} {s t : State} (hexec : Executable i shape)
    (hcond : s.conditionPassed i.iset = true) (hunit : s.advSimdCheck = .enabled) (hno : s.launch.memAdmit = [])
    (h : exec i s = .next t) (m : Memory) (n : Nat) :
    (baseAddress i s).toNat + 4 * shape.ebytes ≤ 2 ^ 32 ∧ StoreEffect i shape s t (newBase i shape s) ∧
    ∃ t', exec i { s with mem := m, draws := n } = .next t' ∧
      StoreEffect i shape { s with mem := m, draws := n } t' (newBase i shape s) := by
  rw [exec_eq_storeChecked hexec hcond hunit] at h
  have hdone := storeChecked_next h
  obtain ⟨t', hdone'⟩ := hdone.withMemory hno m n
  exact ⟨hdone.noWrap, hdone.storeEffect, t',
    (exec_eq_storeChecked (s := { s with mem := m, draws := n }) hexec hcond hunit).trans (storeChecked_of_completed hdone'),
    hdone'.storeEffect⟩

/-! ## The obligations -/

/-- Settles O20: with a failing condition only an executable encoding is not refused (its clause is O19's), and the refusal is one of
T32 instructions only (O35). -/
theorem failedConditionOnBadEncodingIsRefused : Obligations.FailedConditionOnBadEncodingIsRefused := by
  refine ⟨fun i s hset hhead hbad => ?_, fun i shape s hset hhead hexec => ?_, fun i s hset h => ?_⟩
  · exact exec_of_condition_failed_of_not_executable (condition_failed_of_head hset hhead) (not_executable_of_bad hbad)
  · exact failedConditionOnlyAdvances.1 i shape s hset hexec hhead
  · obtain ⟨⟨⟩, -⟩ | ⟨⟨⟩, -⟩ | ⟨⟨⟩, -⟩ | ⟨⟨⟩, -⟩ | ⟨⟨⟩, -⟩ | ⟨-, ht32, -⟩ := execRefusesOnlyForTheListedReasons i s _ h
    cases hset.symm.trans ht32

/-- Settles O32, by `exec_fault_cause`: three of its causes raise Undefined Instruction. -/
theorem causesOfUndefinedInstruction : Obligations.CausesOfUndefinedInstruction := by
  intro i s r pc w h
  have hcond := conditionPassed_of_exec_fault h
  cases exec_fault_cause h with
  | undefinedWord hword => exact ⟨rfl, rfl, rfl, hcond, hword.imp_right .inl⟩
  | undefinedList hlist hcu => exact ⟨rfl, rfl, rfl, hcond, .inr (.inr (.inr ⟨⟨_, hlist⟩, hcu⟩))⟩
  | unitUndefined _ hunit => exact ⟨rfl, rfl, rfl, hcond, .inr (.inr (.inl hunit))⟩

/-- Settles O33, by `exec_fault_cause`: the enable check alone raises the Hyp trap, where an instruction comes to it. -/
theorem hypTrapOnlyFromEnableCheck : Obligations.HypTrapOnlyFromEnableCheck := by
  intro i s r pc w h
  have hcond := conditionPassed_of_exec_fault h
  cases exec_fault_cause h with
  | unitTrapped hreach hunit => exact ⟨rfl, rfl, rfl, hunit, hcond, hreach⟩

/-- Settles O34, by `exec_fault_cause`: the alignment test raises the Alignment fault, and the `Unknown` row may. -/
theorem alignmentFaultRecordsBaseAddress : Obligations.AlignmentFaultRecordsBaseAddress := by
  intro i s r acc address h
  have hcond := conditionPassed_of_exec_fault h
  cases exec_fault_cause h with
  | misaligned hexec hunit hmis =>
    exact ⟨rfl, (zero_append_eq_setWidth _).symm, s.accDesc_eq, hcond, hunit, .inl ⟨_, hexec, opsAt_misaligned_iff.mp hmis⟩⟩
  | unknownRowMisaligned hrow hunit =>
    exact ⟨rfl, (zero_append_eq_setWidth _).symm, s.accDesc_eq, hcond, hunit, .inr hrow⟩

/-- Settles O39, by `exec_next_withUnread`: the level is a part of the state that an instruction reads through `MemAdmit` only. -/
theorem exceptionLevelActsThroughMemAdmitOnly : Obligations.ExceptionLevelActsThroughMemAdmitOnly := by
  intro i s t e hadmit h
  obtain ⟨ws, hmem, hother⟩ := exec_next_withUnread (u := ⟨s.mem, e, s.dit, s.condAnswers⟩) h rfl (admitsAlike_of_el hadmit e)
  refine hother.trans ?_
  rw [State.withUnread_eq_withEl hmem.symm (exec_next_frame h).system.dit.symm (exec_next_advanced h).condAnswers.symm]
  rfl

/-- Settles O44: the abort leaves only bytes of the structure UNKNOWN, and the completion stores every one of them, from the same
registers. -/
theorem abortedInstructionIsRestartable : Obligations.AbortedInstructionIsRestartable := by
  intro i s r t info hrow h hnext
  have hcond := conditionPassed_of_exec_fault h
  have hframe := (exec_raise_frame h rfl).1
  cases exec_fault_cause h with
  | unknownRowAborted hrow' => exact absurd hrow' hrow
  | @abortedStore shape touched _ hexec hunit =>
    rw [(s.unknownBytes_same touched).eq]
    obtain ⟨hwrap, heffect, t', hnext', heffect'⟩ :=
      exec_next_withMemory (s := { s with launch := { s.launch with memAdmit := [] } }) hexec hcond hunit rfl hnext
        (s.unknownBytes touched).mem (s.unknownBytes touched).draws
    refine ⟨t', hnext', heffect.registers.gpr_eq heffect'.registers rfl, heffect'.dregs.trans heffect.dregs.symm,
      heffect'.advanced.pc.trans heffect.advanced.pc.symm, heffect.memory.read_eq heffect'.memory rfl fun a ha => ?_⟩
    exact hframe.memory a (outsideStructure_of_noWrap (s := s) hexec.row hwrap ha)

end Sys2Proof.Machine

/-! SUPPORT. Proofs of the family 70_reset_and_hazards.md: the DIT bit, and the state at reset. First the rules they need. -/

namespace Sys2Proof.Machine

/-! ## The DIT bit -/

theorem State.withUnread_eq_withDit {t : State} {u : Unread} (hmem : u.mem = t.mem) (hel : u.el = t.el)
    (hcond : u.condAnswers = t.condAnswers) : t.withUnread u = { t with dit := u.dit } := by
  rw [State.withUnread, hmem, hel, hcond]

/-- An instruction that completes does so alike with the DIT bit at either value, and leaves it (rule R216): neither its condition nor
`MemAdmit` looks at the bit, so the same bytes are written to the same memory. -/
theorem exec_next_withDit {i : Instr} {s t : State} (h : exec i s = .next t) (b : Bool) :
    exec i { s with dit := b } = .next { t with dit := b } := by
  obtain ⟨ws, hmem, hother⟩ := exec_next_withUnread (u := ⟨s.mem, s.el, b, s.condAnswers⟩) h rfl
    fun _ addr size => s.memAdmit_withUnread _ _ _ addr size
  refine hother.trans ?_
  rw [State.withUnread_eq_withDit hmem.symm (exec_next_frame h).system.el.symm (exec_next_advanced h).condAnswers.symm]
  rfl

/-! ## The state at reset -/

/-- Reset lists no byte, so its memories are canonical and in `LaunchMemory`, and its pc 0x100 is a multiple of 4 (logs 7, 8, 11). -/
theorem State.reset_inv : State.reset.inv = true := by
  refine State.inv_iff.mpr ⟨rfl, rfl, State.memInLaunch_iff.mpr fun _ _ => rfl, ?_⟩
  decide

/-! ## The obligations -/

/-- Settles O40: either value of the DIT bit fetches and decodes the same instruction, which completes alike by `exec_next_withDit`. -/
theorem ditBitHasNoEffect : Obligations.DitBitHasNoEffect := by
  intro s t b h
  obtain ⟨haligned, bytes, i, rest, hbytes, hdecode, hexec⟩ := step_next h
  rw [step_of_decode_ok (s := { s with dit := b }) haligned hbytes hdecode]
  exact exec_next_withDit hexec b

/-- Settles O41, by `State.reset_inv`; the rest are values that reset writes out. -/
theorem resetMeetsInvariant : Obligations.ResetMeetsInvariant :=
  ⟨State.reset_inv, rfl, rfl, rfl⟩

end Sys2Proof.Machine
